-- ==== Sys2Proof/Word.lean ====
section
/-! DEFINITION. The two unsigned word types of the core (spec/00_scope.md R7, R9): a memory cell and an 8-bit
register is a `Byte` (`u8`); an address, `PC` and `SP` are a `Word` (`u16`). -/

namespace Sys2Proof

/-- `u8` of R9: a memory cell, an 8-bit register, an instruction byte. -/
abbrev Byte := BitVec 8

/-- `u16` of R9: an address, `PC`, `SP`, a 16-bit value held in memory. -/
abbrev Word := BitVec 16

end Sys2Proof
end

