-- ==== Sys2Proof/Syntax.lean ====
section
/-! DEFINITION. The instructions of spec/30_encoding.md R85 as syntax: one constructor per row of
spec/opcode_table.json, with the operand the instruction bytes hold (R81, R82). -/

namespace Sys2Proof

/-- The eight legal instructions (R85). Operands stand as R82 assembles them from the instruction bytes; a 16-bit
operand is already joined from its low and high byte. -/
inductive Instr where
  /-- NOP (R140): the byte that follows the opcode, fetched and discarded. -/
  | nop (b8 : Byte)
  /-- LDA # (R152): the immediate. -/
  | ldaImm (imm : Byte)
  /-- LDA zp (R153): the zero-page address. -/
  | ldaZp (zp : Byte)
  /-- LDA zp,X (R154): the zero-page base. -/
  | ldaZpX (zp : Byte)
  /-- LDA abs (R155): the absolute address. -/
  | ldaAbs (addr : Word)
  /-- JMP abs (R170): the target. -/
  | jmpAbs (target : Word)
  /-- JMP (ind) (R171): the pointer to the target. -/
  | jmpInd (ptr : Word)
  /-- JSR (R172): the target. -/
  | jsr (target : Word)
  deriving DecidableEq, Repr

end Sys2Proof
end

