-- ==== Sys2Proof/Decode.lean ====
section
/-! DEFINITION. The decoder and the encoder (spec/30_encoding.md), the opcode assignment they share and the byte-order
helpers. The decoder is total on any list of bytes and names what it rejects. -/

namespace Sys2Proof

/-! ## Byte order (20_memory.md R60) -/

/-- `hi ++ lo` of R9, "the `u16` value `hi * 256 + lo`"; the ALU's `word` (41_addressing_modes.md R128). -/
def word (hi lo : Byte) : Word := BitVec.ofNat 16 (hi.toNat * 256 + lo.toNat)

/-- `v[7:0]`. -/
def lowByte (v : Word) : Byte := v.extractLsb' 0 8

/-- `v[15:8]`. -/
def highByte (v : Word) : Byte := v.extractLsb' 8 8

/-! ## The opcode assignment

The ONE place that holds the opcode bytes of R85 (91_not_in_source.md N12 asks for one). 0xA9, 0xB5 and 0x4C are the
source's; the other five are the spec's decision D10. PRESUMED by the spec, unsafe (assumption 2). -/

def opNop : Byte := 0xEA#8
def opLdaImm : Byte := 0xA9#8
def opLdaZp : Byte := 0xA5#8
def opLdaZpX : Byte := 0xB5#8
def opLdaAbs : Byte := 0xAD#8
def opJmpAbs : Byte := 0x4C#8
def opJmpInd : Byte := 0x6C#8
def opJsr : Byte := 0x20#8

/-! ## Decoding -/

/-- What follows an opcode (R81): one byte (`OP_B8`, `OP_ZP`) or two (`OP_ABS`, `OP_IND`), and the instruction
that operand makes. -/
inductive OperandForm where
  | oneByte (mk : Byte → Instr)
  | twoBytes (mk : Word → Instr)

/-- The opcode map (R85). -/
def opcodeTable : List (Byte × OperandForm) :=
  [ (opNop, .oneByte .nop),
    (opLdaImm, .oneByte .ldaImm),
    (opLdaZp, .oneByte .ldaZp),
    (opLdaZpX, .oneByte .ldaZpX),
    (opLdaAbs, .twoBytes .ldaAbs),
    (opJmpAbs, .twoBytes .jmpAbs),
    (opJmpInd, .twoBytes .jmpInd),
    (opJsr, .twoBytes .jsr) ]

/-- Table lookup on all eight bits of the opcode (R83, R102); `none` for the 248 illegal bytes (R86). -/
def operandForm (op : Byte) : Option OperandForm :=
  opcodeTable.lookup op

/-- Why a list of bytes does not begin with an instruction. -/
inductive DecodeError where
  /-- There is no byte to read an opcode from. -/
  | empty
  /-- The byte is none of R85 (R87); no operand byte is looked at (R88). -/
  | unknownOpcode (opcode : Byte)
  /-- The opcode is legal but the list ends before its operand does. -/
  | truncated (opcode : Byte)
  deriving DecidableEq, Repr

/-- Read one instruction from the front of a list of bytes and return the rest of the list (R80 to R88). -/
def decode : List Byte → Except DecodeError (Instr × List Byte)
  | [] => .error .empty
  | op :: rest =>
    match operandForm op with
    | none => .error (.unknownOpcode op)
    | some (.oneByte mk) =>
      match rest with
      | b :: rest' => .ok (mk b, rest')
      | [] => .error (.truncated op)
    | some (.twoBytes mk) =>
      match rest with
      | lo :: hi :: rest' => .ok (mk (word hi lo), rest')
      | _ => .error (.truncated op)

/-! ## Encoding -/

/-- The opcode byte of an instruction (R85). -/
def Instr.opcode : Instr → Byte
  | .nop _ => opNop
  | .ldaImm _ => opLdaImm
  | .ldaZp _ => opLdaZp
  | .ldaZpX _ => opLdaZpX
  | .ldaAbs _ => opLdaAbs
  | .jmpAbs _ => opJmpAbs
  | .jmpInd _ => opJmpInd
  | .jsr _ => opJsr

/-- The operand bytes in address order, low byte first (R81, R60). -/
def Instr.operandBytes : Instr → List Byte
  | .nop b8 => [b8]
  | .ldaImm imm => [imm]
  | .ldaZp zp => [zp]
  | .ldaZpX zp => [zp]
  | .ldaAbs addr => [lowByte addr, highByte addr]
  | .jmpAbs target => [lowByte target, highByte target]
  | .jmpInd ptr => [lowByte ptr, highByte ptr]
  | .jsr target => [lowByte target, highByte target]

/-- The bytes of an instruction in address order (R80, R81). -/
def encode (i : Instr) : List Byte := i.opcode :: i.operandBytes

/-! ## The opcode table's words -/

/-- The three bytes, in address order, of an instruction whose bits are `w`: bit 0 of `w` is the least significant bit
of the first byte, and every bit from `nbits` up is 0. Three bytes are the longest instruction (R80). -/
def tableWordBytes (nbits w : Nat) : List Byte :=
  let bits := w % 2 ^ nbits
  [BitVec.ofNat 8 bits, BitVec.ofNat 8 (bits / 2 ^ 8), BitVec.ofNat 8 (bits / 2 ^ 16)]

/-- The instruction the decoder reads from a word of spec/opcode_table.json. -/
def decodeTableWord (nbits w : Nat) : Option Instr :=
  match decode (tableWordBytes nbits w) with
  | .ok (i, _) => some i
  | .error _ => none

end Sys2Proof
end

