-- ==== Sys2Proof/Config.lean ====
section
/-! DEFINITION. The implementation parameters of spec/00_scope.md R7 that no instruction computes, and the free
values: what the core and its memory hold from creation until the first `Reset` (10_state.md R33, R38;
20_memory.md R53). A free value has no body: no proof can see what it is. -/

namespace Sys2Proof.Config

/-- `MEM_SIZE` of R7: capacity of memory in bytes, the full 16-bit address space. -/
def memSize : Nat := 65536

/-- `PC` after `Reset` (R7, R37; 92_eei_decisions.md D1). -/
def resetPC : Word := 0xFFFC#16

/-- `SP` after `Reset` (R7, R37). -/
def resetSP : Word := 0x0100#16

/-- FREE VALUE (assumption 1): what cell `a` holds before the first `Initialize` (R53: "an unconstrained draw,
fixed once drawn"). -/
opaque powerOnCell : Nat → Byte

/-- FREE VALUE (assumption 1): the 8-bit registers before the first `Reset` (R33); 0 is `A`, 1 is `X`, 2 is `Y`. -/
opaque powerOnByteRegister : Nat → Byte

/-- FREE VALUE (assumption 1): the 16-bit registers before the first `Reset` (R33); 0 is `PC`, 1 is `SP`. -/
opaque powerOnWordRegister : Nat → Word

/-- FREE VALUE (assumption 1): the flags before the first `Reset` (R33), numbered 0 to 6 in the order
`C Z I D B V N` of R28. -/
opaque powerOnFlag : Nat → Bool

/-- FREE VALUE (assumption 1): `CYC` before the first `Reset`. -/
opaque powerOnCycles : Int

end Sys2Proof.Config
end

