-- ==== Sys2Proof/Machine/State.lean ====
section
/-! DEFINITION. The state of the core and of the memory it is attached to (spec/10_state.md R20; 20_memory.md
R50), as plain data; why a step can stop; and the state right after `Reset` (R37). -/

namespace Sys2Proof.Machine

/-- Memory `M` (R50): pairs of an address and the byte it holds, in the one canonical form that
`Memory.wf` (Machine/Ops.lean) states: addresses strictly rising and below 65536, no byte equal to
0x00. An address not listed reads as 0x00, what `Initialize` leaves in every cell (R52). The representation is a DESIGN
CHOICE, safe (assumption 5). -/
abbrev Memory := List Host.Cell

/-- The seven flags, "seven independent boolean fields grouped into one status value" (R28). -/
structure Flags where
  /-- Carry. -/
  c : Bool
  /-- Zero. -/
  z : Bool
  /-- Interrupt-disable. -/
  i : Bool
  /-- Decimal. -/
  d : Bool
  /-- Break. -/
  b : Bool
  /-- Overflow. -/
  v : Bool
  /-- Negative. -/
  n : Bool
  deriving DecidableEq, Repr

/-- The width of an access, "1|2" in R31. -/
inductive Width where
  | byte
  | word
  deriving DecidableEq, Repr

/-- What the memory primitives report when they fail (20_memory.md R55 to R58). `addr` is the base address of the access, exact
and not wrapped (R9), so that the host's own accesses beyond the address space can be reported too (R238). -/
structure AccessError where
  addr : Nat
  width : Width
  write : Bool
  deriving DecidableEq, Repr

/-- What an instruction raises (60_exceptions.md R200), before the address of its opcode is recorded with it. -/
inductive Cause where
  /-- Raised by the dispatcher (R202). -/
  | unknownOpcode (opcode : Byte)
  /-- Raised by a memory access of the core (R201). -/
  | outOfRange (error : AccessError)
  deriving DecidableEq, Repr

/-- The fault record (R31). `pc` is the address of the opcode byte of the instruction that raised it. -/
inductive FaultRecord where
  | unknownOpcode (opcode : Byte) (pc : Word)
  | outOfRangeAccess (addr : Word) (width : Width) (write : Bool) (pc : Word)
  deriving DecidableEq, Repr

/-- The state (R20) at an instruction boundary, with the memory lent to the core (R50). -/
structure State where
  /-- Accumulator (R21). -/
  a : Byte
  /-- Index register X (R22). -/
  x : Byte
  /-- Index register Y (R23). -/
  y : Byte
  /-- Program counter (R25). -/
  pc : Word
  /-- Stack pointer (R27). -/
  sp : Word
  /-- `C Z I D B V N` (R28 to R30). -/
  flags : Flags
  /-- Cycle counter, what is left of the budget of the current or last call (R32). -/
  cyc : Int
  /-- Latched fault record (R31). -/
  fault : Option FaultRecord
  /-- Whether `Reset` has run since the core was created (R33). -/
  defined : Bool
  /-- Memory (R50). -/
  mem : Memory
  deriving DecidableEq, Repr

/-- Why a step can stop with a fault. -/
inductive Fault where
  /-- Raised by `step` in a state whose fault record is latched (R204, R206): the call of `Execute` has
  ended with this record and no iteration follows. Safe: the core stops here too. The instruction that raised
  the record does not answer this; it answers the next state in which the record is latched. DESIGN CHOICE, safe
  (assumption 3). -/
  | stopped (record : FaultRecord)
  deriving DecidableEq, Repr

/-- Why a step or a host operation is given no meaning. -/
inductive Refusal where
  /-- Raised by `exec` for an instruction that has no meaning yet; no arm of it is left. Safe. -/
  | notModelled (mnemonic : String)
  /-- Raised by `step` and by the host operations that need `DEFINED` (R33, R100, R239): registers and flags are
  undefined until `Reset`. Safe: the spec refuses here too. -/
  | undefinedBeforeReset
  /-- Raised by the host's `Execute` while a fault is latched (R100, R206). Safe: the spec refuses here too. -/
  | faultLatched
  /-- Raised by a host operation in a state in which a call of `Execute` is under way (R69, R238). DEDUCED, safe
  (assumption 7): the spec gives the host no step there. -/
  | callInProgress
  deriving DecidableEq, Repr

/-- All flags clear (R37). -/
def Flags.clear : Flags :=
  { c := false, z := false, i := false, d := false, b := false, v := false, n := false }

/-- The state right after `Reset` (R37, R230): every field at the value the spec gives. -/
def State.reset : State :=
  { a := 0x00#8
    x := 0x00#8
    y := 0x00#8
    pc := Config.resetPC
    sp := Config.resetSP
    flags := Flags.clear
    cyc := 0
    fault := none
    defined := true
    mem := [] }

end Sys2Proof.Machine
end

