-- ==== Sys2Proof/Machine/Ops.lean ====
section
/-! DEFINITION. The operations the instructions share: memory as data, the four memory primitives (spec/20_memory.md
R54 to R58), the accesses the core makes with them and what they cost (40_fetch_decode_execute.md R106), the ALU
(41_addressing_modes.md R128) and taking a fault (60_exceptions.md R204). -/

namespace Sys2Proof.Machine

/-! ## Memory as data -/

/-- `M[a]` (R50). -/
def Memory.read : Memory → Nat → Byte
  | [], _ => 0x00#8
  | (k, v) :: rest, a => if k = a then v else Memory.read rest a

/-- `M[a] <- v` (R57). Writing 0x00 removes the entry, so that equal memories stay equal data. -/
def Memory.write : Memory → Nat → Byte → Memory
  | [], a, v => if v = 0x00#8 then [] else [(a, v)]
  | (k, w) :: rest, a, v =>
    if k < a then (k, w) :: Memory.write rest a v
    else
      let above := if k = a then rest else (k, w) :: rest
      if v = 0x00#8 then above else (a, v) :: above

/-- Addresses at or above `low`, strictly rising, below the capacity; no byte equal to 0x00. -/
def Memory.wfFrom : Nat → Memory → Bool
  | _, [] => true
  | low, (k, v) :: rest =>
    decide (low ≤ k) && decide (k < Config.memSize) && v != 0x00#8 && Memory.wfFrom (k + 1) rest

/-- The canonical form of memory. -/
def Memory.wf (m : Memory) : Bool := Memory.wfFrom 0 m

/-- `Initialize()` (R52): every cell 0x00. -/
def Memory.initialized : Memory := []

/-- The memory whose `count` cells from `low` up hold what `f` gives, and whose other cells hold 0x00. -/
def Memory.tabulate (f : Nat → Byte) : Nat → Nat → Memory
  | _, 0 => []
  | low, count + 1 =>
    let above := Memory.tabulate f (low + 1) count
    if f low = 0x00#8 then above else (low, f low) :: above

/-! ## The memory primitives, the same for the core and the host -/

/-- `ReadByte` (R55). -/
def Memory.readByte (m : Memory) (addr : Nat) : Except AccessError Byte :=
  if addr ≥ Config.memSize then .error ⟨addr, .byte, false⟩
  else .ok (m.read addr)

/-- `ReadWord` (R56). Both bytes are checked first, and `addr + 1` does not wrap (R9). -/
def Memory.readWord (m : Memory) (addr : Nat) : Except AccessError Word :=
  if addr ≥ Config.memSize ∨ addr + 1 ≥ Config.memSize then .error ⟨addr, .word, false⟩
  else .ok (word (m.read (addr + 1)) (m.read addr))

/-- `WriteByte` (R57). -/
def Memory.writeByte (m : Memory) (addr : Nat) (v : Byte) : Except AccessError Memory :=
  if addr ≥ Config.memSize then .error ⟨addr, .byte, true⟩
  else .ok (m.write addr v)

/-- `WriteWord`, in the source's order of arguments (R58). Both bytes are checked before either is written. -/
def Memory.writeWord (m : Memory) (v : Word) (addr : Nat) : Except AccessError Memory :=
  if addr ≥ Config.memSize ∨ addr + 1 ≥ Config.memSize then .error ⟨addr, .word, true⟩
  else .ok ((m.write addr (lowByte v)).write (addr + 1) (highByte v))

/-! ## Register updates -/

/-- `PC <- target`. -/
def State.setPc (s : State) (target : Word) : State := { s with pc := target }

/-- `A <- v`. -/
def State.setA (s : State) (v : Byte) : State := { s with a := v }

/-- The status value as a whole. -/
def State.setFlags (s : State) (f : Flags) : State := { s with flags := f }

/-- `M` as a whole. -/
def State.setMem (s : State) (m : Memory) : State := { s with mem := m }

/-- `CYC <- CYC - cost` (R106). -/
def State.charge (s : State) (cost : Int) : State := { s with cyc := s.cyc - cost }

/-- `FAULT <- record` (R204). -/
def State.latch (s : State) (record : FaultRecord) : State := { s with fault := some record }

/-! ## The accesses the core makes, charged to `CYC` (R106) -/

/-- Cost of one byte access (R7, R106). -/
def byteCost : Int := 1

/-- Cost of one word access (R7, R106). -/
def wordCost : Int := 2

/-- `MemRead(addr, 1)` (R11, R55). -/
def State.readByte (s : State) (addr : Word) : Except Cause (Byte × State) :=
  match s.mem.readByte addr.toNat with
  | .error e => .error (.outOfRange e)
  | .ok v => .ok (v, s.charge byteCost)

/-- `MemRead(addr, 2)` (R11, R56). -/
def State.readWord (s : State) (addr : Word) : Except Cause (Word × State) :=
  match s.mem.readWord addr.toNat with
  | .error e => .error (.outOfRange e)
  | .ok v => .ok (v, s.charge wordCost)

/-- `MemWrite(addr, 1, v)` (R11, R57). No instruction in scope makes this access (R63). -/
def State.writeByte (s : State) (addr : Word) (v : Byte) : Except Cause State :=
  match s.mem.writeByte addr.toNat v with
  | .error e => .error (.outOfRange e)
  | .ok m => .ok ((s.charge byteCost).setMem m)

/-- `MemWrite(addr, 2, v)` (R11, R58). -/
def State.writeWord (s : State) (v : Word) (addr : Word) : Except Cause State :=
  match s.mem.writeWord v addr.toNat with
  | .error e => .error (.outOfRange e)
  | .ok m => .ok ((s.charge wordCost).setMem m)

/-! ## The ALU (R128); `word` stands in Decode.lean and `zn` in Flags.lean -/

/-- `add8(a, b) = (a + b) mod 256`: no carry-out, no flag. -/
def add8 (a b : Byte) : Byte := a + b

/-- `inc16(p, n) = (p + n) mod 2^16`. -/
def inc16 (p n : Word) : Word := p + n

/-! ## Taking a fault -/

/-- The fault record of a cause raised by the instruction whose opcode stands at `pc` (R31). -/
def Cause.record (pc : Word) : Cause → FaultRecord
  | .unknownOpcode op => .unknownOpcode op pc
  | .outOfRange e => .outOfRangeAccess (BitVec.ofNat 16 e.addr) e.width e.write pc

/-- `take_fault` (R204). `s0` is the snapshot of the instruction boundary: going back to it undoes everything
the instruction has done, its opcode fetch and cycle units with it; then the record is latched. There is no
handler, no vector and no saved context, and no return: only `Reset` clears the record (R206). -/
def takeFault (s0 : State) (cause : Cause) : State := s0.latch (cause.record s0.pc)

/-- The end of an instruction that began at the boundary `s0`: its result, or the fault it raised (R203, R204). -/
def complete (s0 : State) (result : Except Cause State) : Host.Outcome State Fault Refusal :=
  match result with
  | .ok s' => .next s'
  | .error cause => .next (takeFault s0 cause)

/-- Whether a call of `Execute` is under way: it has neither run out of its budget nor ended in a fault (R101, R103). These are
the states R111 defines an iteration for. -/
def State.busy (s : State) : Bool :=
  s.defined && s.fault.isNone && decide (0 < s.cyc)

/-! ## Placing an instruction -/

/-- Store bytes at `pc` and the addresses after it, modulo 2^16 (R80). -/
def Memory.place : Memory → Word → List Byte → Memory
  | m, _, [] => m
  | m, pc, b :: rest => Memory.place (m.write pc.toNat b) (inc16 pc 1) rest

end Sys2Proof.Machine
end

