-- ==== Sys2Proof/Machine/Operands.lean ====
section
/-! DEFINITION. The instruction-stream fetches and the addressing modes (spec/41_addressing_modes.md), and the fetch of one
instruction with its dispatch on the opcode (40_fetch_decode_execute.md R101, R102).

An instruction reaches its meaning decoded, its operand already in the term. The meaning then PASSES the bytes the
operand came from: it makes the same fetch, with its advance of `PC`, its cost and its fault, and takes the
operand from the term. DESIGN CHOICE, safe (assumption 9). -/

namespace Sys2Proof.Machine

/-! ## Instruction-stream fetches -/

/-- `Fetch8` (R120), and the opcode fetch of R101, which is the same access. -/
def fetch8 (s : State) : Except Cause (Byte × State) := do
  let (b, s1) ← s.readByte s.pc
  return (b, s1.setPc (inc16 s.pc 1))

/-- `Fetch16` (R121): one word access, so at `PC = 0xFFFF` it raises and does not wrap. -/
def fetch16 (s : State) : Except Cause (Word × State) := do
  let (w, s1) ← s.readWord s.pc
  return (w, s1.setPc (inc16 s.pc 2))

/-- Pass the opcode byte (R101). -/
def passOpcode (s : State) : Except Cause State := do
  let (_, s1) ← fetch8 s
  return s1

/-- Pass a one-byte operand (R120). -/
def passByte (s : State) : Except Cause State := do
  let (_, s1) ← fetch8 s
  return s1

/-- Pass a two-byte operand (R121). -/
def passWord (s : State) : Except Cause State := do
  let (_, s1) ← fetch16 s
  return s1

/-! ## Addressing modes: the operand, its bytes passed -/

/-- Immediate (R122): the operand is the byte itself. -/
def operandImm (imm : Byte) (s : State) : Except Cause (Byte × State) := do
  let s1 ← passByte s
  return (imm, s1)

/-- Zero page (R123): `zext_16(zp)`. -/
def eaZp (zp : Byte) (s : State) : Except Cause (Word × State) := do
  let s1 ← passByte s
  return (zp.setWidth 16, s1)

/-- Zero page indexed by X (R124): `zext_16((zp + X) mod 256)`; `X` is not changed (R130). -/
def eaZpX (zp : Byte) (s : State) : Except Cause (Word × State) := do
  let s1 ← passByte s
  return ((add8 zp s.x).setWidth 16, s1)

/-- Absolute (R125). -/
def eaAbs (addr : Word) (s : State) : Except Cause (Word × State) := do
  let s1 ← passWord s
  return (addr, s1)

/-- Indirect (R126): the word the pointer points to, read as one word access, so it crosses a page and raises
at 0xFFFF. -/
def eaInd (ptr : Word) (s : State) : Except Cause (Word × State) := do
  let s1 ← passWord s
  s1.readWord ptr

/-- Implied with a discarded byte (R127); only NOP uses it. -/
def operandDiscard (_b8 : Byte) (s : State) : Except Cause State := passByte s

/-! ## Fetching one instruction -/

/-- Fetch the opcode at `PC`, decide whether it is legal before any operand byte is fetched (R88, R102), then fetch
its operand. The fetches only read; the meaning of the instruction repeats their effect on `PC` and `CYC`. -/
def fetchInstr (s : State) : Except Cause Instr := do
  let (op, s1) ← fetch8 s
  match operandForm op with
  | none => throw (.unknownOpcode op)
  | some (.oneByte mk) =>
    let (b, _) ← fetch8 s1
    return mk b
  | some (.twoBytes mk) =>
    let (w, _) ← fetch16 s1
    return mk w

end Sys2Proof.Machine
end

