-- ==== Sys2Proof/Machine/Control.lean ====
section
/-! DEFINITION. The control-transfer family (spec/44_control_transfer.md). -/

namespace Sys2Proof.Machine

/-- JMP absolute (R170). -/
def execJmpAbs (target : Word) (s : State) : Host.Outcome State Fault Refusal :=
  complete s do
    let s1 ← passOpcode s
    let (ea, s2) ← eaAbs target s1
    return s2.setPc ea

/-- JMP indirect (R171). -/
def execJmpInd (ptr : Word) (s : State) : Host.Outcome State Fault Refusal :=
  complete s do
    let s1 ← passOpcode s
    let (ea, s2) ← eaInd ptr s1
    return s2.setPc ea

/-- JSR (R172): the target is fetched first, then `PC`, by then past the instruction, is pushed as a word at
`SP`; `SP` is not changed (R27). -/
def execJsr (target : Word) (s : State) : Host.Outcome State Fault Refusal :=
  complete s do
    let s1 ← passOpcode s
    let (ea, s2) ← eaAbs target s1
    let s3 ← s2.writeWord s2.pc s2.sp
    return s3.setPc ea

end Sys2Proof.Machine
end

