-- ==== Sys2Proof/Machine/Flags.lean ====
section
/-! DEFINITION. The status-update hook (spec/43_load.md R150) and the packed status byte, which no rule reads and
which exists for observation only (10_state.md R34; 92_eei_decisions.md D15). -/

namespace Sys2Proof.Machine

/-- `zn(v)` of the ALU (41_addressing_modes.md R128). -/
def zn (v : Byte) : Bool × Bool := (v == 0x00#8, v.getLsbD 7)

/-- `SetZN(v)` on the status value (R150). -/
def Flags.setZN (f : Flags) (v : Byte) : Flags := { f with z := (zn v).1, n := (zn v).2 }

/-- `SetZN(v)` (R150). It costs nothing. -/
def State.setZN (s : State) (v : Byte) : State := s.setFlags (s.flags.setZN v)

/-- `PackP = N<<7 | V<<6 | 1<<5 | B<<4 | D<<3 | I<<2 | Z<<1 | C` (R34). PRESUMED by the spec, safe (assumption 12). -/
def Flags.packP (f : Flags) : Byte :=
  BitVec.ofBool f.n ++ BitVec.ofBool f.v ++ BitVec.ofBool true ++ BitVec.ofBool f.b ++
    BitVec.ofBool f.d ++ BitVec.ofBool f.i ++ BitVec.ofBool f.z ++ BitVec.ofBool f.c

/-- `UnpackP(p)`: each flag from its bit, bit 5 ignored (R34). -/
def Flags.unpackP (p : Byte) : Flags :=
  { c := p.getLsbD 0
    z := p.getLsbD 1
    i := p.getLsbD 2
    d := p.getLsbD 3
    b := p.getLsbD 4
    v := p.getLsbD 6
    n := p.getLsbD 7 }

end Sys2Proof.Machine
end

