-- ==== Sys2Proof/Machine/Load.lean ====
section
/-! DEFINITION. The load family (spec/43_load.md): LDA in its four addressing modes. -/

namespace Sys2Proof.Machine

/-- The shape every LDA shares (R151): assign the operand to `A`, then run the status-update hook on it. -/
def loadA (v : Byte) (s : State) : State := (s.setA v).setZN v

/-- Load `A` with the byte at an effective address (R129). -/
def loadAFrom (ea : Word) (s : State) : Except Cause State := do
  let (v, s1) ← s.readByte ea
  return loadA v s1

/-- LDA # (R152). -/
def execLdaImm (imm : Byte) (s : State) : Host.Outcome State Fault Refusal :=
  complete s do
    let s1 ← passOpcode s
    let (v, s2) ← operandImm imm s1
    return loadA v s2

/-- LDA zp (R153). -/
def execLdaZp (zp : Byte) (s : State) : Host.Outcome State Fault Refusal :=
  complete s do
    let s1 ← passOpcode s
    let (ea, s2) ← eaZp zp s1
    loadAFrom ea s2

/-- LDA zp,X (R154). -/
def execLdaZpX (zp : Byte) (s : State) : Host.Outcome State Fault Refusal :=
  complete s do
    let s1 ← passOpcode s
    let (ea, s2) ← eaZpX zp s1
    loadAFrom ea s2

/-- LDA abs (R155). -/
def execLdaAbs (addr : Word) (s : State) : Host.Outcome State Fault Refusal :=
  complete s do
    let s1 ← passOpcode s
    let (ea, s2) ← eaAbs addr s1
    loadAFrom ea s2

end Sys2Proof.Machine
end

