-- ==== Sys2Proof/Machine/Nop.lean ====
section
/-! DEFINITION. The no-operation family (spec/42_nop.md). -/

namespace Sys2Proof.Machine

/-- NOP (R140): a two-byte instruction whose second byte is discarded (30_encoding.md R89). -/
def execNop (b8 : Byte) (s : State) : Host.Outcome State Fault Refusal :=
  complete s do
    let s1 ← passOpcode s
    operandDiscard b8 s1

end Sys2Proof.Machine
end

