-- ==== Sys2Proof/Machine/Iteration.lean ====
section
/-! DEFINITION. One iteration of the `Execute` loop (spec/40_fetch_decode_execute.md R101, R111), and what
places an instruction where the next iteration fetches it. -/

namespace Sys2Proof.Machine

/-- One iteration (R111): fetch one instruction at `PC` and perform it, or take the fault its fetch raises. -/
def iterate (s : State) : Host.Outcome State Fault Refusal :=
  match fetchInstr s with
  | .ok i => exec i s
  | .error cause => .next (takeFault s cause)

/-- `step` in every state. Before `Reset` there is no meaning (R33, R100). With a fault latched the call has ended with that
record (R204): DESIGN CHOICE, safe (assumption 3). With the budget used up the call has returned `Done` and nothing
changes until the host's next call (R103, R109): DESIGN CHOICE, safe (assumption 6). Otherwise one iteration. -/
def stepBody (s : State) : Host.Outcome State Fault Refusal :=
  if s.defined then
    match s.fault with
    | some record => .fault (.stopped record)
    | none => if 0 < s.cyc then iterate s else .next s
  else .refused .undefinedBeforeReset

/-- Stands for the host loading an instruction at `PC` and calling `Execute(1)`, the single step of
60_exceptions.md R213. DESIGN CHOICE, safe (assumption 4). A call already under way keeps its budget. -/
def placeAndAdmit (nbits w : Nat) (s : State) : State :=
  { s with
    mem := s.mem.place s.pc (tableWordBytes nbits w)
    cyc := if 0 < s.cyc then s.cyc else 1
    fault := none
    defined := true }

end Sys2Proof.Machine
end

