-- ==== Sys2Proof/Machine/Step.lean ====
section
/-! DEFINITION. The step function (spec/40_fetch_decode_execute.md R111). -/

namespace Sys2Proof.Machine

/-- One step of the machine: one iteration of the loop of R101 while a call is under way. -/
def step (s : State) : Host.Outcome State Fault Refusal := stepBody s

/-- `s` with an instruction of the opcode table placed where `step` fetches its next instruction, and one iteration
admitted. -/
def State.withFetchWord (s : State) (nbits w : Nat) : State := placeAndAdmit nbits w s

end Sys2Proof.Machine
end

