-- ==== Sys2Proof/Machine/Cost.lean ====
section
/-! DEFINITION. The cost table (spec/40_fetch_decode_execute.md R107), in cycle units. The meanings do not read it: they
charge each access as it is made (R106). The table is what the statements hold them to (70_reset_and_hazards.md
R242). -/

namespace Sys2Proof

/-- The cost of an instruction that completes (R107; 92_eei_decisions.md D7). UNVERIFIED against the repository, unsafe
(assumption 10). -/
def Instr.cost : Instr → Int
  | .nop _ => 2
  | .ldaImm _ => 2
  | .ldaZp _ => 3
  | .ldaZpX _ => 3
  | .ldaAbs _ => 4
  | .jmpAbs _ => 3
  | .jmpInd _ => 5
  | .jsr _ => 5

end Sys2Proof
end

