-- ==== Sys2Proof/Machine/Harness.lean ====
section
/-! DEFINITION. The host interface (spec/70_reset_and_hazards.md R238), which is the only way the core's state
changes outside `Execute`, and `Execute` itself (40_fetch_decode_execute.md R100 to R109) as the host sees it. -/

namespace Sys2Proof.Machine

/-- What the host may read of the core (R105, R238). -/
inductive Observable where
  | A | X | Y | PC | SP | C | Z | I | D | B | V | N | CYC | FAULT
  deriving DecidableEq, Repr

/-- The host's operations (R238). Addresses are exact numbers: the host may name one beyond the capacity. -/
inductive HarnessOp where
  /-- `Initialize()` (20_memory.md R52). -/
  | clearMemory
  | readByte (addr : Nat)
  | readWord (addr : Nat)
  | writeByte (addr : Nat) (v : Byte)
  | writeWord (v : Word) (addr : Nat)
  | reset
  | execute (cycleBudget : Int)
  | observe (what : Observable)
  deriving DecidableEq, Repr

/-- What a host operation returns. -/
inductive HarnessAnswer where
  /-- No return value. -/
  | unit
  | byte (v : Byte)
  | word (v : Word)
  | flag (v : Bool)
  | integer (v : Int)
  | record (v : Option FaultRecord)
  /-- A failing memory access of the host, returned to it; it sets no `FAULT` (R238). -/
  | outOfRangeAccess (error : AccessError)
  /-- `Execute` returned `Done` (R103). -/
  | done
  /-- `Execute` returned `Fault(record)` (R103). -/
  | faulted (record : FaultRecord)
  deriving DecidableEq, Repr

/-- The core and its memory as created, before the first `Reset` (R33, R38; 20_memory.md R53): every register, flag and cell at a
free value. -/
def State.created : State :=
  { a := Config.powerOnByteRegister 0
    x := Config.powerOnByteRegister 1
    y := Config.powerOnByteRegister 2
    pc := Config.powerOnWordRegister 0
    sp := Config.powerOnWordRegister 1
    flags :=
      { c := Config.powerOnFlag 0
        z := Config.powerOnFlag 1
        i := Config.powerOnFlag 2
        d := Config.powerOnFlag 3
        b := Config.powerOnFlag 4
        v := Config.powerOnFlag 5
        n := Config.powerOnFlag 6 }
    cyc := Config.powerOnCycles
    fault := none
    defined := false
    mem := Memory.tabulate Config.powerOnCell 0 Config.memSize }

/-! ## Execute -/

/-- The loop of R101: iterate while the call is under way. `fuel` bounds the iterations; a call never needs more
than its budget, since an iteration that does not fault lowers `CYC` by at least 2 (R111). DEDUCED, safe
(assumption 11). -/
def loop : Nat → State → State
  | 0, s => s
  | fuel + 1, s =>
    if s.busy then
      match step s with
      | .next s' => loop fuel s'
      | .fault _ => s
      | .refused _ => s
    else s

/-- Entry of `Execute` (R100): the two refusals, then `CYC <- cycleBudget`. -/
def enterExecute (cycleBudget : Int) (s : State) : Host.Outcome State Fault Refusal :=
  if s.defined then
    match s.fault with
    | some _ => .refused .faultLatched
    | none => .next { s with cyc := cycleBudget }
  else .refused .undefinedBeforeReset

/-- What `Execute` returns from its final state (R103, R105). -/
def callResult (s : State) : HarnessAnswer :=
  match s.fault with
  | none => .done
  | some record => .faulted record

/-- `Execute(cycleBudget)` (R100, R101). -/
def execute (cycleBudget : Int) (s : State) :
    Host.Outcome (State × HarnessAnswer) Fault Refusal :=
  match enterExecute cycleBudget s with
  | .next s1 =>
    let s2 := loop cycleBudget.toNat s1
    .next (s2, callResult s2)
  | .fault r => .fault r
  | .refused r => .refused r

/-! ## The other operations -/

/-- The value of an observable (R105). -/
def observe (what : Observable) (s : State) : HarnessAnswer :=
  match what with
  | .A => .byte s.a
  | .X => .byte s.x
  | .Y => .byte s.y
  | .PC => .word s.pc
  | .SP => .word s.sp
  | .C => .flag s.flags.c
  | .Z => .flag s.flags.z
  | .I => .flag s.flags.i
  | .D => .flag s.flags.d
  | .B => .flag s.flags.b
  | .V => .flag s.flags.v
  | .N => .flag s.flags.n
  | .CYC => .integer s.cyc
  | .FAULT => .record s.fault

/-- A memory read of the host: no state changes, and a failing access is returned to it. -/
def answerRead {α : Type} (s : State) (wrap : α → HarnessAnswer) (result : Except AccessError α) :
    State × HarnessAnswer :=
  match result with
  | .ok v => (s, wrap v)
  | .error e => (s, .outOfRangeAccess e)

/-- A memory write of the host: memory changes and nothing is charged; a failing access is returned to it and
changes nothing. -/
def answerWrite (s : State) (result : Except AccessError Memory) : State × HarnessAnswer :=
  match result with
  | .ok m => (s.setMem m, .unit)
  | .error e => (s, .outOfRangeAccess e)

/-- One host operation (R238). None has a step while a call of `Execute` is under way (R69). -/
def harness (op : HarnessOp) (s : State) : Host.Outcome (State × HarnessAnswer) Fault Refusal :=
  if s.busy then .refused .callInProgress
  else
    match op with
    | .clearMemory => .next (s.setMem Memory.initialized, .unit)
    | .readByte addr => .next (answerRead s .byte (s.mem.readByte addr))
    | .readWord addr => .next (answerRead s .word (s.mem.readWord addr))
    | .writeByte addr v => .next (answerWrite s (s.mem.writeByte addr v))
    | .writeWord v addr => .next (answerWrite s (s.mem.writeWord v addr))
    | .reset => .next (State.reset, .unit)
    | .execute cycleBudget => execute cycleBudget s
    | .observe what =>
      if s.defined then .next (s, observe what s) else .refused .undefinedBeforeReset

end Sys2Proof.Machine
end

