-- ==== Sys2Proof/WellFormed.lean ====
section
/-! DEFINITION. Well-formedness. Operand widths are carried by the types of Syntax.lean, and every value of
an operand is admitted (spec/30_encoding.md R82), so an instruction taken alone has nothing left to check. What
can be wrong is where it stands: 70_reset_and_hazards.md R234 and R241 (c) ask that no word fetch start at 0xFFFF, and
41_addressing_modes.md R126 gives the pointer 0xFFFF no pointee. -/

namespace Sys2Proof

/-- Length in bytes, a function of the opcode alone (R84). -/
def Instr.length : Instr → Nat
  | .nop _ => 2
  | .ldaImm _ => 2
  | .ldaZp _ => 2
  | .ldaZpX _ => 2
  | .ldaAbs _ => 3
  | .jmpAbs _ => 3
  | .jmpInd _ => 3
  | .jsr _ => 3

/-- The operand word of a 3-byte instruction can be fetched when the opcode stands at `pc` (R234: "A 3-byte instruction whose
opcode is at 0xFFFE faults"). -/
def Instr.wellPlaced (pc : Word) (i : Instr) : Bool :=
  i.length == 2 || pc != 0xFFFE#16

/-- The pointer of JMP (ind) has a word to point to (R126: "A pointer of 0xFFFF raises `OutOfRangeAccess`"). -/
def Instr.pointeeExists : Instr → Bool
  | .nop _ => true
  | .ldaImm _ => true
  | .ldaZp _ => true
  | .ldaZpX _ => true
  | .ldaAbs _ => true
  | .jmpAbs _ => true
  | .jmpInd ptr => ptr != 0xFFFF#16
  | .jsr _ => true

/-- An instruction that software may place at `pc` without raising `OutOfRangeAccess` by the way it is
written (R241 (c), R126). Encoding needs no such premise: every term of `Instr` has an encoding. -/
def Instr.wellFormedAt (pc : Word) (i : Instr) : Bool :=
  i.wellPlaced pc && i.pointeeExists

end Sys2Proof
end

