-- ==== Sys2Proof/Safety.lean ====
section
/-! DEFINITION. What the statements call a good state and an instruction that completes. -/

namespace Sys2Proof.Machine

/-- The only access an instruction makes at an address it does not hold itself and that can fail: the push of JSR
at `SP = 0xFFFF` (spec/60_exceptions.md R201). -/
def pushFits (i : Instr) (s : State) : Bool :=
  match i with
  | .nop _ => true
  | .ldaImm _ => true
  | .ldaZp _ => true
  | .ldaZpX _ => true
  | .ldaAbs _ => true
  | .jmpAbs _ => true
  | .jmpInd _ => true
  | .jsr _ => s.sp != 0xFFFF#16

/-- The instruction, with its opcode at `PC`, raises nothing (the complement of the table of R201). -/
def completes (i : Instr) (s : State) : Bool := i.wellFormedAt s.pc && pushFits i s

/-- A fault record the core can have latched with `PC` at `pc` (R201, R202, R204): an illegal opcode, or a word access at
0xFFFF, recorded with the address of the instruction that raised it, where `PC` then stands. -/
def FaultRecord.legalAt (pc : Word) : FaultRecord → Bool
  | .unknownOpcode op recorded => (operandForm op).isNone && recorded == pc
  | .outOfRangeAccess addr width _ recorded => addr == 0xFFFF#16 && width == .word && recorded == pc

/-- Invariant of every step and every host operation: memory has its canonical form, and a latched record is one
the core can have latched where `PC` stands. -/
def State.inv (s : State) : Bool :=
  s.mem.wf &&
    match s.fault with
    | none => true
    | some record => record.legalAt s.pc

/-- What every state after the first `Reset` keeps, because only `Reset` writes it (10_state.md R22, R23, R27, R30,
R33, with the values of R37). -/
def State.asResetLeft (s : State) : Bool :=
  s.defined && s.x == 0x00#8 && s.y == 0x00#8 && s.sp == Config.resetSP &&
    !s.flags.c && !s.flags.i && !s.flags.d && !s.flags.b && !s.flags.v

/-- `Z` and `N` describe `A` (R29), true of every state from the first LDA after a `Reset` on. -/
def State.znOfA (s : State) : Bool :=
  s.flags.z == (s.a == 0x00#8) && s.flags.n == s.a.getLsbD 7

end Sys2Proof.Machine
end

