-- ==== Sys2Proof/Certificates/Slice0/Obligations.lean ====
section
/-! DEFINITION. The statements for the provers. Each docstring names the rules of spec/ it rests on, or the log entry of
a choice of the model. -/

open Sys2Proof Sys2Proof.Machine

/-! ## Reset -/

/-- R37: every piece of state after `Reset`. -/
def Obligations.ResetLeavesTheTabledValues : Prop :=
  State.reset.pc = 0xFFFC#16 ∧ State.reset.sp = 0x0100#16 ∧
    State.reset.a = 0x00#8 ∧ State.reset.x = 0x00#8 ∧ State.reset.y = 0x00#8 ∧
    State.reset.flags.c = false ∧ State.reset.flags.z = false ∧ State.reset.flags.i = false ∧
    State.reset.flags.d = false ∧ State.reset.flags.b = false ∧ State.reset.flags.v = false ∧
    State.reset.flags.n = false ∧
    State.reset.cyc = 0 ∧ State.reset.fault = none ∧ State.reset.defined = true ∧
    ∀ addr : Nat, State.reset.mem.read addr = 0x00#8

/-- R230, R231: the host's `Reset` gives that state from every state in which no call is under way, reached before any
`Reset`, after `Done` or after a fault, and does not read the word at 0xFFFC. -/
def Obligations.HostResetReinitializesFromAnyIdleState : Prop :=
  (∀ s : State, s.busy = false → harness .reset s = .next (State.reset, .unit)) ∧
    (∀ s : State, (s.defined = false ∨ s.fault.isSome = true ∨ s.cyc ≤ 0) → s.busy = false)

/-! ## Instructions: encoding, result, cost and faults -/

/-- R140. -/
def Obligations.NopDiscardsOneByte : Prop :=
  (∀ (b8 : Byte) (rest : List Byte), decode (0xEA#8 :: b8 :: rest) = .ok (.nop b8, rest)) ∧
    (∀ (b8 : Byte) (s : State),
      exec (.nop b8) s = .next { s with pc := s.pc + 2#16, cyc := s.cyc - 2 }) ∧
    (∀ s : State, s.busy = true → s.mem.read s.pc.toNat = 0xEA#8 →
      step s = exec (.nop (s.mem.read (s.pc + 1#16).toNat)) s)

/-- R152. -/
def Obligations.LdaImmediateLoadsItsOperand : Prop :=
  (∀ (imm : Byte) (rest : List Byte), decode (0xA9#8 :: imm :: rest) = .ok (.ldaImm imm, rest)) ∧
    (∀ (imm : Byte) (s : State),
      exec (.ldaImm imm) s =
        .next { s with
          a := imm
          flags := { s.flags with z := decide (imm = 0x00#8), n := imm.getLsbD 7 }
          pc := s.pc + 2#16
          cyc := s.cyc - 2 }) ∧
    (∀ s : State, s.busy = true → s.mem.read s.pc.toNat = 0xA9#8 →
      step s = exec (.ldaImm (s.mem.read (s.pc + 1#16).toNat)) s)

/-- R153. -/
def Obligations.LdaZeroPageLoadsItsCell : Prop :=
  (∀ (zp : Byte) (rest : List Byte), decode (0xA5#8 :: zp :: rest) = .ok (.ldaZp zp, rest)) ∧
    (∀ (zp v : Byte) (s : State), s.mem.read zp.toNat = v →
      exec (.ldaZp zp) s =
        .next { s with
          a := v
          flags := { s.flags with z := decide (v = 0x00#8), n := v.getLsbD 7 }
          pc := s.pc + 2#16
          cyc := s.cyc - 3 }) ∧
    (∀ s : State, s.busy = true → s.mem.read s.pc.toNat = 0xA5#8 →
      step s = exec (.ldaZp (s.mem.read (s.pc + 1#16).toNat)) s)

/-- R154: the address is `(zp + X) mod 256`, in every state, whether or not a run reaches it. -/
def Obligations.LdaZeroPageXLoadsItsIndexedCell : Prop :=
  (∀ (zp : Byte) (rest : List Byte), decode (0xB5#8 :: zp :: rest) = .ok (.ldaZpX zp, rest)) ∧
    (∀ (zp v : Byte) (s : State), s.mem.read ((zp.toNat + s.x.toNat) % 256) = v →
      exec (.ldaZpX zp) s =
        .next { s with
          a := v
          flags := { s.flags with z := decide (v = 0x00#8), n := v.getLsbD 7 }
          pc := s.pc + 2#16
          cyc := s.cyc - 3 }) ∧
    (∀ s : State, s.busy = true → s.mem.read s.pc.toNat = 0xB5#8 →
      step s = exec (.ldaZpX (s.mem.read (s.pc + 1#16).toNat)) s)

/-- R155, R204: the load, and the fault with the whole instruction undone when the opcode stands at 0xFFFE. That a fault is
a next state is the model's choice (log entry 3). -/
def Obligations.LdaAbsoluteLoadsItsCell : Prop :=
  (∀ (lo hi : Byte) (rest : List Byte),
      decode (0xAD#8 :: lo :: hi :: rest) = .ok (.ldaAbs (word hi lo), rest)) ∧
    (∀ (addr : Word) (v : Byte) (s : State), s.pc ≠ 0xFFFE#16 → s.mem.read addr.toNat = v →
      exec (.ldaAbs addr) s =
        .next { s with
          a := v
          flags := { s.flags with z := decide (v = 0x00#8), n := v.getLsbD 7 }
          pc := s.pc + 3#16
          cyc := s.cyc - 4 }) ∧
    (∀ (addr : Word) (s : State), s.pc = 0xFFFE#16 →
      exec (.ldaAbs addr) s =
        .next { s with fault := some (.outOfRangeAccess 0xFFFF#16 .word false s.pc) }) ∧
    (∀ s : State, s.busy = true → s.mem.read s.pc.toNat = 0xAD#8 → s.pc ≠ 0xFFFE#16 →
      step s =
        exec (.ldaAbs (word (s.mem.read (s.pc + 2#16).toNat) (s.mem.read (s.pc + 1#16).toNat))) s) ∧
    (∀ s : State, s.busy = true → s.mem.read s.pc.toNat = 0xAD#8 → s.pc = 0xFFFE#16 →
      step s = .next { s with fault := some (.outOfRangeAccess 0xFFFF#16 .word false s.pc) })

/-- R170, R204. That a fault is a next state is the model's choice (log entry 3). -/
def Obligations.JmpAbsoluteGoesToItsTarget : Prop :=
  (∀ (lo hi : Byte) (rest : List Byte),
      decode (0x4C#8 :: lo :: hi :: rest) = .ok (.jmpAbs (word hi lo), rest)) ∧
    (∀ (target : Word) (s : State), s.pc ≠ 0xFFFE#16 →
      exec (.jmpAbs target) s = .next { s with pc := target, cyc := s.cyc - 3 }) ∧
    (∀ (target : Word) (s : State), s.pc = 0xFFFE#16 →
      exec (.jmpAbs target) s =
        .next { s with fault := some (.outOfRangeAccess 0xFFFF#16 .word false s.pc) }) ∧
    (∀ s : State, s.busy = true → s.mem.read s.pc.toNat = 0x4C#8 → s.pc ≠ 0xFFFE#16 →
      step s =
        exec (.jmpAbs (word (s.mem.read (s.pc + 2#16).toNat) (s.mem.read (s.pc + 1#16).toNat))) s) ∧
    (∀ s : State, s.busy = true → s.mem.read s.pc.toNat = 0x4C#8 → s.pc = 0xFFFE#16 →
      step s = .next { s with fault := some (.outOfRangeAccess 0xFFFF#16 .word false s.pc) })

/-- R171, R204: the pointee's high byte is at `ptr + 1`, across a page if need be; both faults. That a fault is a next state is
the model's choice (log entry 3). -/
def Obligations.JmpIndirectGoesToItsPointee : Prop :=
  (∀ (lo hi : Byte) (rest : List Byte),
      decode (0x6C#8 :: lo :: hi :: rest) = .ok (.jmpInd (word hi lo), rest)) ∧
    (∀ (ptr : Word) (s : State), s.pc ≠ 0xFFFE#16 → ptr ≠ 0xFFFF#16 →
      exec (.jmpInd ptr) s =
        .next { s with
          pc := word (s.mem.read (ptr.toNat + 1)) (s.mem.read ptr.toNat)
          cyc := s.cyc - 5 }) ∧
    (∀ (ptr : Word) (s : State), (s.pc = 0xFFFE#16 ∨ ptr = 0xFFFF#16) →
      exec (.jmpInd ptr) s =
        .next { s with fault := some (.outOfRangeAccess 0xFFFF#16 .word false s.pc) }) ∧
    (∀ s : State, s.busy = true → s.mem.read s.pc.toNat = 0x6C#8 → s.pc ≠ 0xFFFE#16 →
      step s =
        exec (.jmpInd (word (s.mem.read (s.pc + 2#16).toNat) (s.mem.read (s.pc + 1#16).toNat))) s) ∧
    (∀ s : State, s.busy = true → s.mem.read s.pc.toNat = 0x6C#8 → s.pc = 0xFFFE#16 →
      step s = .next { s with fault := some (.outOfRangeAccess 0xFFFF#16 .word false s.pc) })

/-- R172, R204: the word pushed is `pc0 + 3` modulo 2^16, low byte at `SP`; `SP` stays; every other cell stays; both faults. That
a fault is a next state is the model's choice (log entry 3). -/
def Obligations.JsrPushesAndGoesToItsTarget : Prop :=
  (∀ (lo hi : Byte) (rest : List Byte),
      decode (0x20#8 :: lo :: hi :: rest) = .ok (.jsr (word hi lo), rest)) ∧
    (∀ (target : Word) (s : State), s.mem.wf = true → s.pc ≠ 0xFFFE#16 → s.sp ≠ 0xFFFF#16 →
      ∃ m : Memory,
        exec (.jsr target) s = .next { s with mem := m, pc := target, cyc := s.cyc - 5 } ∧
          m.read s.sp.toNat = BitVec.ofNat 8 ((s.pc + 3#16).toNat % 256) ∧
          m.read (s.sp.toNat + 1) = BitVec.ofNat 8 ((s.pc + 3#16).toNat / 256) ∧
          ∀ addr : Nat, addr ≠ s.sp.toNat → addr ≠ s.sp.toNat + 1 → m.read addr = s.mem.read addr) ∧
    (∀ (target : Word) (s : State), s.pc = 0xFFFE#16 →
      exec (.jsr target) s =
        .next { s with fault := some (.outOfRangeAccess 0xFFFF#16 .word false s.pc) }) ∧
    (∀ (target : Word) (s : State), s.pc ≠ 0xFFFE#16 → s.sp = 0xFFFF#16 →
      exec (.jsr target) s =
        .next { s with fault := some (.outOfRangeAccess 0xFFFF#16 .word true s.pc) }) ∧
    (∀ s : State, s.busy = true → s.mem.read s.pc.toNat = 0x20#8 → s.pc ≠ 0xFFFE#16 →
      step s =
        exec (.jsr (word (s.mem.read (s.pc + 2#16).toNat) (s.mem.read (s.pc + 1#16).toNat))) s) ∧
    (∀ s : State, s.busy = true → s.mem.read s.pc.toNat = 0x20#8 → s.pc = 0xFFFE#16 →
      step s = .next { s with fault := some (.outOfRangeAccess 0xFFFF#16 .word false s.pc) })

/-! ## Frames -/

/-- R24, R151: what no LDA changes, whether it completes or faults. -/
def Obligations.LoadsChangeOnlyAccumulatorAndTwoFlags : Prop :=
  ∀ (i : Instr) (s t : State),
    ((∃ imm, i = .ldaImm imm) ∨ (∃ zp, i = .ldaZp zp) ∨ (∃ zp, i = .ldaZpX zp) ∨
      ∃ addr, i = .ldaAbs addr) →
    exec i s = .next t →
      t.x = s.x ∧ t.y = s.y ∧ t.sp = s.sp ∧ t.defined = s.defined ∧
        t.flags.c = s.flags.c ∧ t.flags.i = s.flags.i ∧ t.flags.d = s.flags.d ∧
        t.flags.b = s.flags.b ∧ t.flags.v = s.flags.v ∧
        (completes i s = true → t.fault = s.fault) ∧
        (completes i s = false → t.a = s.a ∧ t.flags = s.flags) ∧
        ∀ addr : Nat, t.mem.read addr = s.mem.read addr

/-- R24, R140, R170, R171: what NOP and the two JMPs leave unchanged. -/
def Obligations.NopAndJumpsChangeNoRegisterFlagOrCell : Prop :=
  ∀ (i : Instr) (s t : State),
    ((∃ b8, i = .nop b8) ∨ (∃ target, i = .jmpAbs target) ∨ ∃ ptr, i = .jmpInd ptr) →
    exec i s = .next t →
      t.a = s.a ∧ t.x = s.x ∧ t.y = s.y ∧ t.sp = s.sp ∧ t.flags = s.flags ∧
        t.defined = s.defined ∧
        (completes i s = true → t.fault = s.fault) ∧
        ∀ addr : Nat, t.mem.read addr = s.mem.read addr

/-- R24, R172, R58, R204: what JSR leaves unchanged. It stores the two bytes at `SP`, and none when it faults. -/
def Obligations.JsrStoresOnlyAtTheStackPointer : Prop :=
  ∀ (target : Word) (s t : State), exec (.jsr target) s = .next t →
    t.a = s.a ∧ t.x = s.x ∧ t.y = s.y ∧ t.sp = s.sp ∧ t.flags = s.flags ∧ t.defined = s.defined ∧
      (completes (.jsr target) s = true → t.fault = s.fault) ∧
      (∀ addr : Nat, addr ≠ s.sp.toNat → addr ≠ s.sp.toNat + 1 →
        t.mem.read addr = s.mem.read addr) ∧
      (completes (.jsr target) s = false → ∀ addr : Nat, t.mem.read addr = s.mem.read addr)

/-! ## Faults -/

/-- R201, R203, R204, R207: the only cases of `OutOfRangeAccess`, what is recorded, and that nothing else of the state
changes; in every other case the instruction completes and latches nothing. That a fault is a next state is the model's
choice (log entry 3). -/
def Obligations.OutOfRangeAccessIsRaisedExactlyWhereTabled : Prop :=
  (∀ (i : Instr) (s : State), i.length = 3 → s.pc = 0xFFFE#16 →
      exec i s = .next { s with fault := some (.outOfRangeAccess 0xFFFF#16 .word false s.pc) }) ∧
    (∀ s : State, s.pc ≠ 0xFFFE#16 →
      exec (.jmpInd 0xFFFF#16) s =
        .next { s with fault := some (.outOfRangeAccess 0xFFFF#16 .word false s.pc) }) ∧
    (∀ (target : Word) (s : State), s.pc ≠ 0xFFFE#16 → s.sp = 0xFFFF#16 →
      exec (.jsr target) s =
        .next { s with fault := some (.outOfRangeAccess 0xFFFF#16 .word true s.pc) }) ∧
    ∀ (i : Instr) (s : State), ¬(i.length = 3 ∧ s.pc = 0xFFFE#16) → i ≠ .jmpInd 0xFFFF#16 →
      ¬((∃ target, i = .jsr target) ∧ s.sp = 0xFFFF#16) →
      ∃ t : State, exec i s = .next t ∧ t.fault = s.fault

/-- R202: an opcode byte outside the table of R85 raises `UnknownOpcode` with the byte and its address. R204: the record is
latched and nothing else changes. That the step answers this as a next state is the model's choice (log entry 3). -/
def Obligations.UnknownOpcodeIsRecordedWithItsAddress : Prop :=
  ∀ s : State, s.busy = true →
    s.mem.read s.pc.toNat ∉
      [0xEA#8, 0xA9#8, 0xA5#8, 0xB5#8, 0xAD#8, 0x4C#8, 0x6C#8, 0x20#8] →
    step s = .next { s with fault := some (.unknownOpcode (s.mem.read s.pc.toNat) s.pc) }

/-- R206, R100. Which field each register read answers is HostReadsAnswerTheNamedState's to say, here too. That `step` answers
the host's `fault` outcome in such a state is the model's choice (log entry 3). -/
def Obligations.FaultStaysLatchedUntilReset : Prop :=
  ∀ (s : State) (record : FaultRecord), s.defined = true → s.fault = some record →
    (∀ cycleBudget : Int, harness (.execute cycleBudget) s = .refused .faultLatched) ∧
      step s = .fault (.stopped record) ∧
      (∀ what : Observable, harness (.observe what) s = .next (s, observe what s)) ∧
      harness (.observe .FAULT) s = .next (s, .record (some record)) ∧
      harness (.observe .PC) s = .next (s, .word s.pc) ∧
      harness (.observe .CYC) s = .next (s, .integer s.cyc) ∧
      (∀ (op : HarnessOp) (s' : State) (answer : HarnessAnswer), op ≠ .reset →
        harness op s = .next (s', answer) → s'.fault = some record) ∧
      harness .reset s = .next (State.reset, .unit) ∧ State.reset.fault = none

/-! ## Encoding -/

/-- R95, R85, R81: a word of each of the eight instructions, written out bit by bit. -/
def Obligations.WrittenOutWordsDecode : Prop :=
  decode [0b11101010#8, 0b01110111#8] = .ok (.nop 0x77#8, []) ∧
    decode [0b10101001#8, 0b01000101#8] = .ok (.ldaImm 0x45#8, []) ∧
    decode [0b10100101#8, 0b01000010#8] = .ok (.ldaZp 0x42#8, []) ∧
    decode [0b10110101#8, 0b01000010#8] = .ok (.ldaZpX 0x42#8, []) ∧
    decode [0b10101101#8, 0b00110100#8, 0b00010010#8] = .ok (.ldaAbs 0x1234#16, []) ∧
    decode [0b01001100#8, 0b00000000#8, 0b10000000#8] = .ok (.jmpAbs 0x8000#16, []) ∧
    decode [0b01101100#8, 0b00000000#8, 0b00000010#8] = .ok (.jmpInd 0x0200#16, []) ∧
    decode [0b00100000#8, 0b00000000#8, 0b10010000#8] = .ok (.jsr 0x9000#16, [])

/-- R80 to R85: the decoder reads an instruction from the front of a list of bytes exactly when the list begins
with its encoding, in both directions. -/
def Obligations.DecodingIsTheInverseOfEncoding : Prop :=
  ∀ (bytes : List Byte) (i : Instr) (rest : List Byte),
    decode bytes = .ok (i, rest) ↔ bytes = encode i ++ rest

/-- R86: the illegal bytes, as the spec lists their ranges, and how many they are. -/
def Obligations.IllegalOpcodesAreTheListedRanges : Prop :=
  (∀ (op : Byte) (rest : List Byte),
      decode (op :: rest) = .error (.unknownOpcode op) ↔
        (op.toNat ≤ 0x1F ∨ (0x21 ≤ op.toNat ∧ op.toNat ≤ 0x4B) ∨
          (0x4D ≤ op.toNat ∧ op.toNat ≤ 0x6B) ∨ (0x6D ≤ op.toNat ∧ op.toNat ≤ 0xA4) ∨
          (0xA6 ≤ op.toNat ∧ op.toNat ≤ 0xA8) ∨ (0xAA ≤ op.toNat ∧ op.toNat ≤ 0xAC) ∨
          (0xAE ≤ op.toNat ∧ op.toNat ≤ 0xB4) ∨ (0xB6 ≤ op.toNat ∧ op.toNat ≤ 0xE9) ∨
          (0xEB ≤ op.toNat ∧ op.toNat ≤ 0xFF))) ∧
    ((List.range 256).filter fun n => (operandForm (BitVec.ofNat 8 n)).isNone).length = 248

/-- R101, R102, R111: when the bytes at `PC` decode to an instruction, a step is that instruction's meaning at that
same state, its opcode fetch included. -/
def Obligations.StepRunsTheDecodedInstruction : Prop :=
  ∀ (s : State) (i : Instr) (rest : List Byte), s.busy = true →
    decode [s.mem.read s.pc.toNat, s.mem.read (s.pc + 1#16).toNat, s.mem.read (s.pc + 2#16).toNat] =
      .ok (i, rest) →
    step s = exec i s

/-- Log entry 4: a word of the opcode table that `withFetchWord` places is what the next step runs. -/
def Obligations.PlacedTableWordIsRunNext : Prop :=
  ∀ (s : State) (nbits w : Nat) (i : Instr), s.mem.wf = true → decodeTableWord nbits w = some i →
    step (s.withFetchWord nbits w) = exec i (s.withFetchWord nbits w)

/-! ## Operands, flags and fetches -/

/-- R26, R120, R121: the instruction-stream fetches, with the wrap of `PC` and the word fetch that does not wrap. -/
def Obligations.FetchesAdvanceTheProgramCounter : Prop :=
  (∀ s : State,
      fetch8 s =
        .ok (s.mem.read s.pc.toNat,
          { s with pc := BitVec.ofNat 16 ((s.pc.toNat + 1) % 65536), cyc := s.cyc - 1 })) ∧
    (∀ s : State, s.pc ≠ 0xFFFF#16 →
      fetch16 s =
        .ok (word (s.mem.read (s.pc.toNat + 1)) (s.mem.read s.pc.toNat),
          { s with pc := BitVec.ofNat 16 ((s.pc.toNat + 2) % 65536), cyc := s.cyc - 2 })) ∧
    ∀ s : State, s.pc = 0xFFFF#16 → fetch16 s = .error (.outOfRange ⟨0xFFFF, .word, false⟩)

/-- R124: the indexed address stays in the zero page; `X` and the flags are untouched and the addition is free. -/
def Obligations.ZeroPageIndexWrapsModulo256 : Prop :=
  ∀ (zp : Byte) (s : State),
    ∃ ea : Word,
      eaZpX zp s =
          .ok (ea, { s with pc := BitVec.ofNat 16 ((s.pc.toNat + 1) % 65536), cyc := s.cyc - 1 }) ∧
        ea.toNat = (zp.toNat + s.x.toNat) % 256

/-- R150. -/
def Obligations.StatusUpdateHookWritesOnlyZAndN : Prop :=
  ∀ (s : State) (v : Byte),
    s.setZN v = { s with flags := { s.flags with z := decide (v = 0x00#8), n := v.getLsbD 7 } }

/-- R34 (the packing itself is decision D15): each flag at its bit, bit 5 set, and back. -/
def Obligations.PackedStatusByteHoldsTheFlags : Prop :=
  (∀ f : Flags,
      f.packP.toNat =
        f.n.toNat * 128 + f.v.toNat * 64 + 32 + f.b.toNat * 16 + f.d.toNat * 8 + f.i.toNat * 4 +
          f.z.toNat * 2 + f.c.toNat) ∧
    (∀ f : Flags, Flags.unpackP f.packP = f) ∧
    ∀ p : Byte, (Flags.unpackP p).packP = p ||| 0x20#8

/-- R29: an LDA that completes leaves `Z` and `N` describing `A`, and every later step keeps it so. -/
def Obligations.ZeroAndNegativeDescribeTheAccumulator : Prop :=
  (∀ (i : Instr) (s t : State),
      ((∃ imm, i = .ldaImm imm) ∨ (∃ zp, i = .ldaZp zp) ∨ (∃ zp, i = .ldaZpX zp) ∨
        ∃ addr, i = .ldaAbs addr) →
      completes i s = true → exec i s = .next t → t.znOfA = true) ∧
    ∀ s t : State, s.znOfA = true → step s = .next t → t.znOfA = true

/-! ## Memory -/

/-- R55, R57, R54: a byte written is read back, no other byte changes, the canonical form is kept, and an address beyond
the capacity fails. -/
def Obligations.ByteWriteIsReadBack : Prop :=
  (∀ (m : Memory) (addr : Nat) (v : Byte), m.wf = true → addr < 65536 →
      ∃ m' : Memory, m.writeByte addr v = .ok m' ∧ m'.wf = true ∧ m'.readByte addr = .ok v ∧
        ∀ other : Nat, other ≠ addr → m'.readByte other = m.readByte other) ∧
    ∀ (m : Memory) (addr : Nat) (v : Byte), 65536 ≤ addr →
      m.readByte addr = .error ⟨addr, .byte, false⟩ ∧
        m.writeByte addr v = .error ⟨addr, .byte, true⟩

/-- R61: words and bytes see the same cells, low byte first. -/
def Obligations.WordIsItsTwoBytesLowFirst : Prop :=
  (∀ (m : Memory) (v : Word) (addr : Nat), m.wf = true → addr + 1 < 65536 →
      ∃ m' : Memory, m.writeWord v addr = .ok m' ∧
        m'.readByte addr = .ok (BitVec.ofNat 8 (v.toNat % 256)) ∧
        m'.readByte (addr + 1) = .ok (BitVec.ofNat 8 (v.toNat / 256)) ∧
        m'.readWord addr = .ok v) ∧
    ∀ (m : Memory) (lo hi : Byte) (addr : Nat), m.wf = true → addr + 1 < 65536 →
      ∃ m1 m2 : Memory, m.writeByte addr lo = .ok m1 ∧ m1.writeByte (addr + 1) hi = .ok m2 ∧
        m2.readWord addr = .ok (BitVec.ofNat 16 (hi.toNat * 256 + lo.toNat))

/-- R56, R58, R62: a word access succeeds at every base up to 0xFFFE, odd or even, and fails above, naming its base
address. -/
def Obligations.WordAccessFailsOnlyAtTheTop : Prop :=
  ∀ (m : Memory) (v : Word) (addr : Nat),
    (addr ≤ 0xFFFE →
      m.readWord addr =
          .ok (BitVec.ofNat 16 ((m.read (addr + 1)).toNat * 256 + (m.read addr).toNat)) ∧
        ∃ m' : Memory, m.writeWord v addr = .ok m') ∧
      (0xFFFF ≤ addr →
        m.readWord addr = .error ⟨addr, .word, false⟩ ∧
          m.writeWord v addr = .error ⟨addr, .word, true⟩)

/-- Log entry 5: memories in the canonical form that hold the same bytes are the same data. -/
def Obligations.CanonicalMemoriesThatReadAlikeAreEqual : Prop :=
  ∀ m m' : Memory, m.wf = true → m'.wf = true → (∀ addr : Nat, addr < 65536 → m.read addr = m'.read addr) →
    m = m'

/-- R66: after JSR to the address `SP`, every fetch there sees the word just pushed, `pc0 + 3` with its low byte first,
with nothing in between: the opcode fetch gives the low byte whatever it is, a word access gives both, and the next step runs
the instruction these bytes begin, with the cell above them as its last byte, or faults on the low byte where it is no
opcode (R202, R204; answered as a next state by log entry 3). -/
def Obligations.PushedBytesAreFetchedAsPushed : Prop :=
  ∀ s t : State, s.mem.wf = true → s.pc ≠ 0xFFFE#16 → s.sp ≠ 0xFFFF#16 →
    exec (.jsr s.sp) s = .next t →
      t.pc = s.sp ∧
      fetch8 t =
        .ok (lowByte (s.pc + 3#16), { t with pc := s.sp + 1#16, cyc := t.cyc - 1 }) ∧
      fetch16 t = .ok (s.pc + 3#16, { t with pc := s.sp + 2#16, cyc := t.cyc - 2 }) ∧
      (t.busy = true →
        (∀ (i : Instr) (rest : List Byte),
          decode [lowByte (s.pc + 3#16), highByte (s.pc + 3#16), s.mem.read (s.sp + 2#16).toNat] =
            .ok (i, rest) →
          step t = exec i t) ∧
        (operandForm (lowByte (s.pc + 3#16)) = none →
          step t =
            .next { t with fault := some (.unknownOpcode (lowByte (s.pc + 3#16)) s.sp) }))

/-! ## Cost and budget -/

/-- R107: the cost table, and that a fault costs nothing. -/
def Obligations.InstructionsCostWhatTheTableSays : Prop :=
  (∀ (i : Instr) (s : State), completes i s = true →
      ∃ t : State, exec i s = .next t ∧ t.cyc = s.cyc - i.cost) ∧
    (∀ b8 : Byte, (Instr.nop b8).cost = 2) ∧ (∀ imm : Byte, (Instr.ldaImm imm).cost = 2) ∧
    (∀ zp : Byte, (Instr.ldaZp zp).cost = 3) ∧ (∀ zp : Byte, (Instr.ldaZpX zp).cost = 3) ∧
    (∀ addr : Word, (Instr.ldaAbs addr).cost = 4) ∧
    (∀ target : Word, (Instr.jmpAbs target).cost = 3) ∧
    (∀ ptr : Word, (Instr.jmpInd ptr).cost = 5) ∧ (∀ target : Word, (Instr.jsr target).cost = 5) ∧
    ∀ s t : State, s.busy = true → operandForm (s.mem.read s.pc.toNat) = none →
      step s = .next t → t.cyc = s.cyc

/-- R111, R107: an iteration returns, having spent 2 to 5 units, or having faulted with everything but the fault record as
it was (R204). R111 returns the latter as `Fault(rec, s0)`; that it is a next state here, so that an iteration always
answers one, is the model's choice (log entry 3). -/
def Obligations.IterationSpendsTwoToFiveUnits : Prop :=
  ∀ s : State, s.busy = true →
    ∃ t : State, step s = .next t ∧
      ((t.fault = none ∧ 2 ≤ s.cyc - t.cyc ∧ s.cyc - t.cyc ≤ 5) ∨
        (∃ record, t = { s with fault := some record }))

/-- R103, R208. That `step` answers the same state here is the model's choice (log entry 6). -/
def Obligations.NothingIsFetchedOnceTheBudgetIsSpent : Prop :=
  ∀ s : State, s.defined = true → s.fault = none → s.cyc ≤ 0 → step s = .next s

/-- R100: the two refusals, and entry with `CYC` loaded. -/
def Obligations.ExecuteEntersOrRefuses : Prop :=
  ∀ (cycleBudget : Int) (s : State),
    (s.defined = false → execute cycleBudget s = .refused .undefinedBeforeReset) ∧
      (s.defined = true → s.fault.isSome = true → execute cycleBudget s = .refused .faultLatched) ∧
      (s.defined = true → s.fault = none →
        enterExecute cycleBudget s = .next { s with cyc := cycleBudget } ∧
          ∃ s' answer, execute cycleBudget s = .next (s', answer))

/-- R109. -/
def Obligations.ExecuteWithNoBudgetRunsNothing : Prop :=
  ∀ (cycleBudget : Int) (s : State), cycleBudget ≤ 0 → s.defined = true → s.fault = none →
    execute cycleBudget s = .next ({ s with cyc := cycleBudget }, .done)

/-- R103, R104, R111: every admitted call ends, in `Done` with the budget used up, overspent by 4 units at most when it was
positive, or in `Fault` with the record latched and units left. -/
def Obligations.ExecuteAlwaysEndsInDoneOrFault : Prop :=
  ∀ (cycleBudget : Int) (s : State), s.defined = true → s.fault = none →
    ∃ (s' : State) (answer : HarnessAnswer), execute cycleBudget s = .next (s', answer) ∧
      ((answer = .done ∧ s'.fault = none ∧ s'.cyc ≤ 0 ∧ (0 < cycleBudget → -4 ≤ s'.cyc)) ∨
        (∃ record, answer = .faulted record ∧ s'.fault = some record ∧ 0 < s'.cyc ∧
          s'.cyc ≤ cycleBudget))

/-- R108: a call is its first instruction followed by a call with what is left of the budget. -/
def Obligations.ExecuteIsItsFirstInstructionThenTheRest : Prop :=
  ∀ (cycleBudget : Int) (s t : State), 0 < cycleBudget → s.defined = true → s.fault = none →
    step { s with cyc := cycleBudget } = .next t → t.fault = none →
    execute cycleBudget s = execute t.cyc t

/-- R101, R103: `Execute` is the host interface's run of `step` from the state that entry leaves, once the run is long enough.
What the run answers after `Done` and after a fault is the model's choice (log entries 3 and 6). -/
def Obligations.ExecuteAgreesWithTheIteratedStep : Prop :=
  ∀ (cycleBudget : Int) (s s' : State) (answer : HarnessAnswer), s.defined = true → s.fault = none →
    execute cycleBudget s = .next (s', answer) →
    ∀ k : Nat, cycleBudget.toNat < k →
      (s'.fault = none → core.run k { s with cyc := cycleBudget } = .next s') ∧
        ∀ record, s'.fault = some record →
          core.run k { s with cyc := cycleBudget } = .fault (.stopped record)

/-! ## Invariants -/

/-- `State.inv` holds after `Reset`. -/
def Obligations.ResetMeetsTheInvariant : Prop :=
  State.reset.inv = true ∧ State.reset.asResetLeft = true

/-- Every step keeps the canonical memory, and a record it latches is one of R201 or R202 with `PC` at the instruction
that raised it (R204). -/
def Obligations.EveryStepKeepsTheInvariant : Prop :=
  ∀ s t : State, s.inv = true → step s = .next t → t.inv = true

/-- The same of every host operation, whole calls of `Execute` among them. -/
def Obligations.EveryHostOperationKeepsTheInvariant : Prop :=
  ∀ (op : HarnessOp) (s s' : State) (answer : HarnessAnswer), s.inv = true →
    harness op s = .next (s', answer) → s'.inv = true

/-- R22, R23, R27, R30, R33: only `Reset` writes `X`, `Y`, `SP`, `C`, `I`, `D`, `B`, `V` and `DEFINED`, so they hold their reset
values in every state after it. -/
def Obligations.OnlyResetWritesTheUnwrittenRegisters : Prop :=
  (∀ s t : State, step s = .next t →
      t.x = s.x ∧ t.y = s.y ∧ t.sp = s.sp ∧ t.flags.c = s.flags.c ∧ t.flags.i = s.flags.i ∧
        t.flags.d = s.flags.d ∧ t.flags.b = s.flags.b ∧ t.flags.v = s.flags.v ∧
        t.defined = s.defined) ∧
    ∀ (op : HarnessOp) (s s' : State) (answer : HarnessAnswer), s.asResetLeft = true →
      harness op s = .next (s', answer) → s'.asResetLeft = true

/-- R201 ("unreachable after Reset"), R172: with the registers as `Reset` left them, no step records a failing write. -/
def Obligations.PushNeverFailsAfterReset : Prop :=
  ∀ (s t : State) (addr : Word) (width : Width) (pc : Word), s.asResetLeft = true →
    step s = .next t → t.fault ≠ some (.outOfRangeAccess addr width true pc)

/-- R21, R23, R29, R30: `A`, `Y` and the flags have no effect on what a step does to the rest of the state. -/
def Obligations.AccumulatorYAndFlagsSteerNothing : Prop :=
  ∀ s s' t : State, s.busy = true → s'.x = s.x → s'.pc = s.pc → s'.sp = s.sp → s'.cyc = s.cyc →
    s'.fault = s.fault → s'.defined = s.defined → s'.mem = s.mem → step s = .next t →
    ∃ t' : State, step s' = .next t' ∧ t'.x = t.x ∧ t'.pc = t.pc ∧ t'.sp = t.sp ∧ t'.cyc = t.cyc ∧
      t'.fault = t.fault ∧ t'.defined = t.defined ∧ t'.mem = t.mem

/-! ## Host interface -/

/-- R238, R54: apart from `Reset` and `Execute` no host operation changes anything but memory, and one that fails changes
nothing at all. -/
def Obligations.HostAccessesChangeOnlyMemory : Prop :=
  ∀ (op : HarnessOp) (s s' : State) (answer : HarnessAnswer), op ≠ .reset →
    (∀ cycleBudget, op ≠ .execute cycleBudget) → harness op s = .next (s', answer) →
    s' = { s with mem := s'.mem } ∧
      (∀ error, answer = .outOfRangeAccess error → s' = s) ∧
      ((∃ addr, op = .readByte addr ∨ op = .readWord addr) ∨ (∃ what, op = .observe what) → s' = s)

/-- R238, R52, R54: the host's memory operations, where no call is under way, with what each answers out of range. -/
def Obligations.HostReadsAndWritesMemory : Prop :=
  ∀ s : State, s.busy = false →
    (harness .clearMemory s = .next ({ s with mem := Memory.initialized }, .unit) ∧
        ∀ addr : Nat, Memory.initialized.read addr = 0x00#8) ∧
      (∀ addr : Nat, addr < 65536 →
        harness (.readByte addr) s = .next (s, .byte (s.mem.read addr))) ∧
      (∀ addr : Nat, addr + 1 < 65536 →
        harness (.readWord addr) s =
          .next (s, .word (word (s.mem.read (addr + 1)) (s.mem.read addr)))) ∧
      (∀ (addr : Nat) (v : Byte), addr < 65536 →
        harness (.writeByte addr v) s = .next ({ s with mem := s.mem.write addr v }, .unit)) ∧
      (∀ (addr : Nat) (v : Word), addr + 1 < 65536 →
        harness (.writeWord v addr) s =
          .next ({ s with mem := (s.mem.write addr (lowByte v)).write (addr + 1) (highByte v) },
            .unit)) ∧
      (∀ addr : Nat, 65536 ≤ addr →
        harness (.readByte addr) s = .next (s, .outOfRangeAccess ⟨addr, .byte, false⟩)) ∧
      (∀ addr : Nat, 65536 ≤ addr + 1 →
        harness (.readWord addr) s = .next (s, .outOfRangeAccess ⟨addr, .word, false⟩)) ∧
      (∀ (addr : Nat) (v : Byte), 65536 ≤ addr →
        harness (.writeByte addr v) s = .next (s, .outOfRangeAccess ⟨addr, .byte, true⟩)) ∧
      ∀ (addr : Nat) (v : Word), 65536 ≤ addr + 1 →
        harness (.writeWord v addr) s = .next (s, .outOfRangeAccess ⟨addr, .word, true⟩)

/-- R33, R100: before the first `Reset` neither `Execute` nor an iteration has a meaning. -/
def Obligations.NothingRunsBeforeReset : Prop :=
  ∀ s : State, s.defined = false →
    step s = .refused .undefinedBeforeReset ∧
      ∀ cycleBudget : Int, harness (.execute cycleBudget) s = .refused .undefinedBeforeReset

/-- R239: before the first `Reset` no register or flag can be read, and memory can. -/
def Obligations.RegistersAreRefusedBeforeReset : Prop :=
  ∀ s : State, s.defined = false →
    (∀ what : Observable, harness (.observe what) s = .refused .undefinedBeforeReset) ∧
      (∀ addr : Nat, addr < 65536 →
        harness (.readByte addr) s = .next (s, .byte (s.mem.read addr))) ∧
      ∀ addr : Nat, addr + 1 < 65536 →
        harness (.readWord addr) s =
          .next (s, .word (word (s.mem.read (addr + 1)) (s.mem.read addr)))

/-- R33, R53 (log entry 1): at creation nothing is defined, every cell holds its free value, and memory has its canonical form. -/
def Obligations.CreatedMemoryIsUnconstrained : Prop :=
  State.created.defined = false ∧ State.created.mem.wf = true ∧
    ∀ addr : Nat, addr < 65536 → State.created.mem.read addr = Config.powerOnCell addr

/-- R105, R238: in every defined state with no call under way, after `Done` as after a fault, the host's read of a register, a
flag, `CYC` or `FAULT` answers that piece of state and changes nothing. -/
def Obligations.HostReadsAnswerTheNamedState : Prop :=
  ∀ s : State, s.busy = false → s.defined = true →
    harness (.observe .A) s = .next (s, .byte s.a) ∧
      harness (.observe .X) s = .next (s, .byte s.x) ∧
      harness (.observe .Y) s = .next (s, .byte s.y) ∧
      harness (.observe .PC) s = .next (s, .word s.pc) ∧
      harness (.observe .SP) s = .next (s, .word s.sp) ∧
      harness (.observe .C) s = .next (s, .flag s.flags.c) ∧
      harness (.observe .Z) s = .next (s, .flag s.flags.z) ∧
      harness (.observe .I) s = .next (s, .flag s.flags.i) ∧
      harness (.observe .D) s = .next (s, .flag s.flags.d) ∧
      harness (.observe .B) s = .next (s, .flag s.flags.b) ∧
      harness (.observe .V) s = .next (s, .flag s.flags.v) ∧
      harness (.observe .N) s = .next (s, .flag s.flags.n) ∧
      harness (.observe .CYC) s = .next (s, .integer s.cyc) ∧
      harness (.observe .FAULT) s = .next (s, .record s.fault)
end

