-- ==== Sys2Proof/Laws/Decode.lean ====
section
/-! SUPPORT. Byte order and the opcode lookup: what Machine and the statements use of Decode.lean. -/

namespace Sys2Proof

theorem toNat_word (hi lo : Byte) : (word hi lo).toNat = hi.toNat * 256 + lo.toNat := by
  simp only [word, BitVec.toNat_ofNat]
  omega

theorem toNat_lowByte (w : Word) : (lowByte w).toNat = w.toNat % 256 := by
  simp [lowByte]

theorem toNat_highByte (w : Word) : (highByte w).toNat = w.toNat / 256 := by
  simp [highByte, Nat.shiftRight_eq_div_pow]
  omega

@[simp] theorem lowByte_word (hi lo : Byte) : lowByte (word hi lo) = lo := by
  apply BitVec.eq_of_toNat_eq
  rw [toNat_lowByte, toNat_word]
  omega

@[simp] theorem highByte_word (hi lo : Byte) : highByte (word hi lo) = hi := by
  apply BitVec.eq_of_toNat_eq
  rw [toNat_highByte, toNat_word]
  omega

@[simp] theorem word_highByte_lowByte (w : Word) : word (highByte w) (lowByte w) = w := by
  apply BitVec.eq_of_toNat_eq
  rw [toNat_word, toNat_highByte, toNat_lowByte]
  omega

/-- An opcode is legal exactly when it is one of the eight bytes of R85. -/
theorem operandForm_isSome_iff (op : Byte) :
    (operandForm op).isSome = true ↔ op ∈ opcodeTable.map Prod.fst := by
  simp only [operandForm, List.lookup, opcodeTable]
  repeat' split
  all_goals simp_all

/-- The number of bytes an instruction is written in (R84). -/
theorem encode_length (i : Instr) : (encode i).length = i.length := by
  cases i <;> rfl

end Sys2Proof
end

