-- ==== Sys2Proof/Laws/Memory.lean ====
section
/-! SUPPORT. Memory as data: what a read sees after a write, every operation keeps the canonical form, and canonical
memories that read alike are equal. -/

namespace Sys2Proof.Machine.Memory

/-! ## The canonical form -/

theorem wfFrom_cons {low k : Nat} {v : Byte} {rest : Memory} :
    wfFrom low ((k, v) :: rest) = true ↔
      low ≤ k ∧ k < Config.memSize ∧ v ≠ 0x00#8 ∧ wfFrom (k + 1) rest = true := by
  simp [wfFrom, and_assoc]

theorem wfFrom_mono {low low' : Nat} {m : Memory} (h : wfFrom low' m = true) (hle : low ≤ low') :
    wfFrom low m = true := by
  cases m with
  | nil => rfl
  | cons cell rest =>
    obtain ⟨k, v⟩ := cell
    rw [wfFrom_cons] at h ⊢
    exact ⟨by omega, h.2⟩

@[simp] theorem read_nil (a : Nat) : read [] a = 0x00#8 := rfl

/-- Below the addresses a canonical memory lists, every cell reads as 0x00. -/
theorem read_below {low a : Nat} {m : Memory} (h : wfFrom low m = true) (ha : a < low) :
    m.read a = 0x00#8 := by
  induction m generalizing low with
  | nil => rfl
  | cons cell rest ih =>
    obtain ⟨k, v⟩ := cell
    rw [wfFrom_cons] at h
    have hk : k ≠ a := by omega
    simp only [read, hk, if_false]
    exact ih h.2.2.2 (by omega)

/-! ## Reading after writing -/

theorem read_write_same {low a : Nat} {m : Memory} (h : wfFrom low m = true) (v : Byte) :
    (m.write a v).read a = v := by
  induction m generalizing low with
  | nil => by_cases hv : v = 0x00#8 <;> simp [write, read, hv]
  | cons cell rest ih =>
    obtain ⟨k, w⟩ := cell
    rw [wfFrom_cons] at h
    by_cases hlt : k < a
    · have hk : k ≠ a := by omega
      simp only [write, hlt, if_true, read, hk, if_false]
      exact ih h.2.2.2
    · have above : ∀ b : Byte, (if k = a then rest else (k, w) :: rest : Memory).read a = b → b = 0x00#8 := by
        intro b hb
        rw [← hb]
        by_cases hk : k = a
        · simpa [hk] using read_below (hk ▸ h.2.2.2) (Nat.lt_succ_self a)
        · have : a < k := by omega
          simpa [hk, read] using read_below h.2.2.2 (by omega)
      by_cases hv : v = 0x00#8
      · simpa [write, hlt, hv] using above _ rfl
      · simp [write, hlt, hv, read]

theorem read_write_other {a b : Nat} (m : Memory) (v : Byte) (hab : b ≠ a) :
    (m.write a v).read b = m.read b := by
  induction m with
  | nil => by_cases hv : v = 0x00#8 <;> simp [write, read, hv, Ne.symm hab]
  | cons cell rest ih =>
    obtain ⟨k, w⟩ := cell
    by_cases hlt : k < a
    · simp only [write, hlt, if_true, read, ih]
    · by_cases hk : k = a
      · subst hk
        by_cases hv : v = 0x00#8 <;> simp [write, read, hv, Ne.symm hab]
      · by_cases hv : v = 0x00#8 <;> simp [write, read, hlt, hk, hv, Ne.symm hab]

/-! ## Every operation keeps the canonical form -/

theorem write_wfFrom {low a : Nat} {m : Memory} (h : wfFrom low m = true) (hlow : low ≤ a)
    (ha : a < Config.memSize) (v : Byte) : wfFrom low (m.write a v) = true := by
  induction m generalizing low with
  | nil =>
    by_cases hv : v = 0x00#8
    · simp [write, hv, wfFrom]
    · simp [write, hv, wfFrom, hlow, ha]
  | cons cell rest ih =>
    obtain ⟨k, w⟩ := cell
    obtain ⟨hk, hsize, hw, hrest⟩ := wfFrom_cons.mp h
    by_cases hlt : k < a
    · simp only [write, hlt, if_true]
      exact wfFrom_cons.mpr ⟨hk, hsize, hw, ih hrest (by omega)⟩
    · have above : wfFrom (a + 1) (if k = a then rest else (k, w) :: rest) = true := by
        by_cases heq : k = a
        · simpa [heq] using hrest
        · simpa [heq] using wfFrom_cons.mpr ⟨by omega, hsize, hw, hrest⟩
      by_cases hv : v = 0x00#8
      · simpa [write, hlt, hv] using wfFrom_mono above (by omega : low ≤ a + 1)
      · simpa [write, hlt, hv] using wfFrom_cons.mpr ⟨hlow, ha, hv, above⟩

theorem write_wf {a : Nat} {m : Memory} (h : m.wf = true) (ha : a < Config.memSize) (v : Byte) :
    (m.write a v).wf = true :=
  write_wfFrom h (Nat.zero_le a) ha v

theorem initialized_wf : initialized.wf = true := rfl

@[simp] theorem read_initialized (a : Nat) : initialized.read a = 0x00#8 := rfl

theorem writeByte_wf {addr : Nat} {m m' : Memory} {v : Byte} (h : m.wf = true)
    (hw : m.writeByte addr v = .ok m') : m'.wf = true := by
  by_cases ha : addr ≥ Config.memSize
  · simp [writeByte, ha] at hw
  · simp only [writeByte, ha, if_false, Except.ok.injEq] at hw
    exact hw ▸ write_wf h (by omega) v

theorem writeWord_wf {addr : Nat} {m m' : Memory} {v : Word} (h : m.wf = true)
    (hw : m.writeWord v addr = .ok m') : m'.wf = true := by
  by_cases ha : addr ≥ Config.memSize ∨ addr + 1 ≥ Config.memSize
  · simp [writeWord, ha] at hw
  · simp only [writeWord, ha, if_false, Except.ok.injEq] at hw
    exact hw ▸ write_wf (write_wf h (by omega) _) (by omega) _

theorem place_wf {m : Memory} (h : m.wf = true) (pc : Word) (bytes : List Byte) :
    (m.place pc bytes).wf = true := by
  induction bytes generalizing m pc with
  | nil => exact h
  | cons b rest ih => exact ih (write_wf h pc.isLt b) _

theorem tabulate_wfFrom (f : Nat → Byte) (low count : Nat) (h : low + count ≤ Config.memSize) :
    wfFrom low (tabulate f low count) = true := by
  induction count generalizing low with
  | zero => rfl
  | succ count ih =>
    have above := ih (low + 1) (by omega)
    by_cases hf : f low = 0x00#8
    · simpa [tabulate, hf] using wfFrom_mono above (Nat.le_succ low)
    · simpa [tabulate, hf] using wfFrom_cons.mpr ⟨Nat.le_refl low, by omega, hf, above⟩

/-! ## Equal memories are equal data -/

theorem eq_of_read_eq_from {low : Nat} {m m' : Memory} (h : wfFrom low m = true)
    (h' : wfFrom low m' = true) (hread : ∀ a, m.read a = m'.read a) : m = m' := by
  induction m generalizing low m' with
  | nil =>
    cases m' with
    | nil => rfl
    | cons cell rest =>
      obtain ⟨k, v⟩ := cell
      exact absurd (by simpa [read] using (hread k).symm) (wfFrom_cons.mp h').2.2.1
  | cons cell rest ih =>
    obtain ⟨k, v⟩ := cell
    obtain ⟨_, _, hv, hrest⟩ := wfFrom_cons.mp h
    cases m' with
    | nil => exact absurd (by simpa [read] using hread k) hv
    | cons cell' rest' =>
      obtain ⟨k', v'⟩ := cell'
      obtain ⟨_, _, hv', hrest'⟩ := wfFrom_cons.mp h'
      have hk : k = k' := by
        rcases Nat.lt_trichotomy k k' with hlt | heq | hgt
        · exact absurd (by simpa [read, Nat.ne_of_gt hlt, read_below hrest' (Nat.lt_succ_of_lt hlt)] using hread k) hv
        · exact heq
        · exact absurd
            (by simpa [read, Nat.ne_of_gt hgt, read_below hrest (Nat.lt_succ_of_lt hgt)] using (hread k').symm) hv'
      subst hk
      have hvv : v = v' := by simpa [read] using hread k
      subst hvv
      have htail : rest = rest' := by
        refine ih hrest hrest' fun a => ?_
        by_cases ha : k = a
        · rw [read_below hrest (by omega), read_below hrest' (by omega)]
        · simpa [read, ha] using hread a
      rw [htail]

end Sys2Proof.Machine.Memory
end

