-- ==== Sys2Proof/Laws/State.lean ====
section
/-! SUPPORT. One lemma per field of State per update of Machine/Ops.lean and Machine/Flags.lean, true by
unfolding, so that no later proof unfolds a record update. -/

namespace Sys2Proof.Machine.State

/-! ## setPc -/

section
variable (s : State) (target : Word)

@[simp] theorem setPc_a : (s.setPc target).a = s.a := rfl
@[simp] theorem setPc_x : (s.setPc target).x = s.x := rfl
@[simp] theorem setPc_y : (s.setPc target).y = s.y := rfl
@[simp] theorem setPc_pc : (s.setPc target).pc = target := rfl
@[simp] theorem setPc_sp : (s.setPc target).sp = s.sp := rfl
@[simp] theorem setPc_flags : (s.setPc target).flags = s.flags := rfl
@[simp] theorem setPc_cyc : (s.setPc target).cyc = s.cyc := rfl
@[simp] theorem setPc_fault : (s.setPc target).fault = s.fault := rfl
@[simp] theorem setPc_defined : (s.setPc target).defined = s.defined := rfl
@[simp] theorem setPc_mem : (s.setPc target).mem = s.mem := rfl

end

/-! ## setA -/

section
variable (s : State) (v : Byte)

@[simp] theorem setA_a : (s.setA v).a = v := rfl
@[simp] theorem setA_x : (s.setA v).x = s.x := rfl
@[simp] theorem setA_y : (s.setA v).y = s.y := rfl
@[simp] theorem setA_pc : (s.setA v).pc = s.pc := rfl
@[simp] theorem setA_sp : (s.setA v).sp = s.sp := rfl
@[simp] theorem setA_flags : (s.setA v).flags = s.flags := rfl
@[simp] theorem setA_cyc : (s.setA v).cyc = s.cyc := rfl
@[simp] theorem setA_fault : (s.setA v).fault = s.fault := rfl
@[simp] theorem setA_defined : (s.setA v).defined = s.defined := rfl
@[simp] theorem setA_mem : (s.setA v).mem = s.mem := rfl

end

/-! ## setFlags -/

section
variable (s : State) (f : Flags)

@[simp] theorem setFlags_a : (s.setFlags f).a = s.a := rfl
@[simp] theorem setFlags_x : (s.setFlags f).x = s.x := rfl
@[simp] theorem setFlags_y : (s.setFlags f).y = s.y := rfl
@[simp] theorem setFlags_pc : (s.setFlags f).pc = s.pc := rfl
@[simp] theorem setFlags_sp : (s.setFlags f).sp = s.sp := rfl
@[simp] theorem setFlags_flags : (s.setFlags f).flags = f := rfl
@[simp] theorem setFlags_cyc : (s.setFlags f).cyc = s.cyc := rfl
@[simp] theorem setFlags_fault : (s.setFlags f).fault = s.fault := rfl
@[simp] theorem setFlags_defined : (s.setFlags f).defined = s.defined := rfl
@[simp] theorem setFlags_mem : (s.setFlags f).mem = s.mem := rfl

end

/-! ## setMem -/

section
variable (s : State) (m : Memory)

@[simp] theorem setMem_a : (s.setMem m).a = s.a := rfl
@[simp] theorem setMem_x : (s.setMem m).x = s.x := rfl
@[simp] theorem setMem_y : (s.setMem m).y = s.y := rfl
@[simp] theorem setMem_pc : (s.setMem m).pc = s.pc := rfl
@[simp] theorem setMem_sp : (s.setMem m).sp = s.sp := rfl
@[simp] theorem setMem_flags : (s.setMem m).flags = s.flags := rfl
@[simp] theorem setMem_cyc : (s.setMem m).cyc = s.cyc := rfl
@[simp] theorem setMem_fault : (s.setMem m).fault = s.fault := rfl
@[simp] theorem setMem_defined : (s.setMem m).defined = s.defined := rfl
@[simp] theorem setMem_mem : (s.setMem m).mem = m := rfl

end

/-! ## charge -/

section
variable (s : State) (cost : Int)

@[simp] theorem charge_a : (s.charge cost).a = s.a := rfl
@[simp] theorem charge_x : (s.charge cost).x = s.x := rfl
@[simp] theorem charge_y : (s.charge cost).y = s.y := rfl
@[simp] theorem charge_pc : (s.charge cost).pc = s.pc := rfl
@[simp] theorem charge_sp : (s.charge cost).sp = s.sp := rfl
@[simp] theorem charge_flags : (s.charge cost).flags = s.flags := rfl
@[simp] theorem charge_cyc : (s.charge cost).cyc = s.cyc - cost := rfl
@[simp] theorem charge_fault : (s.charge cost).fault = s.fault := rfl
@[simp] theorem charge_defined : (s.charge cost).defined = s.defined := rfl
@[simp] theorem charge_mem : (s.charge cost).mem = s.mem := rfl

end

/-! ## latch -/

section
variable (s : State) (record : FaultRecord)

@[simp] theorem latch_a : (s.latch record).a = s.a := rfl
@[simp] theorem latch_x : (s.latch record).x = s.x := rfl
@[simp] theorem latch_y : (s.latch record).y = s.y := rfl
@[simp] theorem latch_pc : (s.latch record).pc = s.pc := rfl
@[simp] theorem latch_sp : (s.latch record).sp = s.sp := rfl
@[simp] theorem latch_flags : (s.latch record).flags = s.flags := rfl
@[simp] theorem latch_cyc : (s.latch record).cyc = s.cyc := rfl
@[simp] theorem latch_fault : (s.latch record).fault = some record := rfl
@[simp] theorem latch_defined : (s.latch record).defined = s.defined := rfl
@[simp] theorem latch_mem : (s.latch record).mem = s.mem := rfl

end

/-! ## setZN: `Z` and `N` alone (R150) -/

section
variable (s : State) (v : Byte)

@[simp] theorem setZN_a : (s.setZN v).a = s.a := rfl
@[simp] theorem setZN_x : (s.setZN v).x = s.x := rfl
@[simp] theorem setZN_y : (s.setZN v).y = s.y := rfl
@[simp] theorem setZN_pc : (s.setZN v).pc = s.pc := rfl
@[simp] theorem setZN_sp : (s.setZN v).sp = s.sp := rfl
@[simp] theorem setZN_cyc : (s.setZN v).cyc = s.cyc := rfl
@[simp] theorem setZN_fault : (s.setZN v).fault = s.fault := rfl
@[simp] theorem setZN_defined : (s.setZN v).defined = s.defined := rfl
@[simp] theorem setZN_mem : (s.setZN v).mem = s.mem := rfl
@[simp] theorem setZN_flags : (s.setZN v).flags = s.flags.setZN v := rfl

end

end Sys2Proof.Machine.State

namespace Sys2Proof.Machine.Flags

variable (f : Flags) (v : Byte)

@[simp] theorem setZN_c : (f.setZN v).c = f.c := rfl
@[simp] theorem setZN_i : (f.setZN v).i = f.i := rfl
@[simp] theorem setZN_d : (f.setZN v).d = f.d := rfl
@[simp] theorem setZN_b : (f.setZN v).b = f.b := rfl
@[simp] theorem setZN_v : (f.setZN v).v = f.v := rfl
@[simp] theorem setZN_z : (f.setZN v).z = (v == 0x00#8) := rfl
@[simp] theorem setZN_n : (f.setZN v).n = v.getLsbD 7 := rfl

end Sys2Proof.Machine.Flags
end

