-- ==== Sys2Proof/Laws/Ops.lean ====
section
/-! SUPPORT. What each shared operation does, said once: the accesses of the core, the instruction-stream
fetches, the addressing modes, the load shape and the end of an instruction. -/

namespace Sys2Proof.Machine

theorem toNat_lt_memSize (addr : Word) : addr.toNat < Config.memSize := addr.isLt

/-- The word access at `addr` stays inside memory exactly when `addr` is not the last address (R59). -/
theorem word_access_fits_iff (addr : Word) :
    ¬(addr.toNat ≥ Config.memSize ∨ addr.toNat + 1 ≥ Config.memSize) ↔ addr ≠ 0xFFFF#16 := by
  have hlt := addr.isLt
  rw [Ne, ← BitVec.toNat_inj]
  simp only [Config.memSize]
  norm_num
  omega

/-- The successor of an address that is not the last one does not wrap. -/
theorem toNat_succ {addr : Word} (h : addr ≠ 0xFFFF#16) : (addr + 1#16).toNat = addr.toNat + 1 := by
  have hlt := addr.isLt
  rw [Ne, ← BitVec.toNat_inj] at h
  norm_num at h
  rw [BitVec.toNat_add]
  norm_num
  omega

/-! ## Accesses -/

namespace State

theorem readByte_eq (s : State) (addr : Word) :
    s.readByte addr = .ok (s.mem.read addr.toNat, s.charge 1) := by
  simp [readByte, Memory.readByte, Nat.not_le.mpr (toNat_lt_memSize addr), byteCost]

theorem readWord_eq (s : State) {addr : Word} (h : addr ≠ 0xFFFF#16) :
    s.readWord addr =
      .ok (word (s.mem.read (addr.toNat + 1)) (s.mem.read addr.toNat), s.charge 2) := by
  simp only [readWord, Memory.readWord, (word_access_fits_iff addr).mpr h, if_false, wordCost]

theorem readWord_last (s : State) :
    s.readWord 0xFFFF#16 = .error (.outOfRange ⟨0xFFFF, .word, false⟩) := rfl

theorem writeByte_eq (s : State) (addr : Word) (v : Byte) :
    s.writeByte addr v = .ok ((s.charge 1).setMem (s.mem.write addr.toNat v)) := by
  simp [writeByte, Memory.writeByte, Nat.not_le.mpr (toNat_lt_memSize addr), byteCost]

theorem writeWord_eq (s : State) (v : Word) {addr : Word} (h : addr ≠ 0xFFFF#16) :
    s.writeWord v addr =
      .ok ((s.charge 2).setMem
        ((s.mem.write addr.toNat (lowByte v)).write (addr.toNat + 1) (highByte v))) := by
  simp only [writeWord, Memory.writeWord, (word_access_fits_iff addr).mpr h, if_false, wordCost]

theorem writeWord_last (s : State) (v : Word) :
    s.writeWord v 0xFFFF#16 = .error (.outOfRange ⟨0xFFFF, .word, true⟩) := rfl

end State

/-! ## Fetches -/

theorem fetch8_eq (s : State) :
    fetch8 s = .ok (s.mem.read s.pc.toNat, (s.charge 1).setPc (s.pc + 1#16)) := by
  simp [fetch8, State.readByte_eq, inc16, bind, Except.bind, pure, Except.pure]

theorem fetch16_eq {s : State} (h : s.pc ≠ 0xFFFF#16) :
    fetch16 s =
      .ok (word (s.mem.read (s.pc.toNat + 1)) (s.mem.read s.pc.toNat),
        (s.charge 2).setPc (s.pc + 2#16)) := by
  simp [fetch16, State.readWord_eq s h, inc16, bind, Except.bind, pure, Except.pure]

theorem fetch16_last {s : State} (h : s.pc = 0xFFFF#16) :
    fetch16 s = .error (.outOfRange ⟨0xFFFF, .word, false⟩) := by
  simp [fetch16, h, State.readWord_last, bind, Except.bind]

theorem passOpcode_eq (s : State) : passOpcode s = .ok ((s.charge 1).setPc (s.pc + 1#16)) := by
  simp [passOpcode, fetch8_eq, bind, Except.bind, pure, Except.pure]

theorem passByte_eq (s : State) : passByte s = .ok ((s.charge 1).setPc (s.pc + 1#16)) := by
  simp [passByte, fetch8_eq, bind, Except.bind, pure, Except.pure]

theorem passWord_eq {s : State} (h : s.pc ≠ 0xFFFF#16) :
    passWord s = .ok ((s.charge 2).setPc (s.pc + 2#16)) := by
  simp [passWord, fetch16_eq h, bind, Except.bind, pure, Except.pure]

theorem passWord_last {s : State} (h : s.pc = 0xFFFF#16) :
    passWord s = .error (.outOfRange ⟨0xFFFF, .word, false⟩) := by
  simp [passWord, fetch16_last h, bind, Except.bind]

/-! ## Passing a whole instruction -/

/-- The state after the opcode and `n` operand bytes are passed, each byte at one unit. -/
def passed (s : State) (n : Nat) : State :=
  (s.charge n).setPc (s.pc + BitVec.ofNat 16 n)

section
variable (s : State) (n : Nat)

@[simp] theorem passed_a : (passed s n).a = s.a := rfl
@[simp] theorem passed_x : (passed s n).x = s.x := rfl
@[simp] theorem passed_y : (passed s n).y = s.y := rfl
@[simp] theorem passed_pc : (passed s n).pc = s.pc + BitVec.ofNat 16 n := rfl
@[simp] theorem passed_sp : (passed s n).sp = s.sp := rfl
@[simp] theorem passed_flags : (passed s n).flags = s.flags := rfl
@[simp] theorem passed_cyc : (passed s n).cyc = s.cyc - n := rfl
@[simp] theorem passed_fault : (passed s n).fault = s.fault := rfl
@[simp] theorem passed_defined : (passed s n).defined = s.defined := rfl
@[simp] theorem passed_mem : (passed s n).mem = s.mem := rfl

end

theorem passOpcode_passed (s : State) : passOpcode s = .ok (passed s 1) := passOpcode_eq s

theorem passByte_passed (s : State) : passByte (passed s 1) = .ok (passed s 2) := by
  rw [passByte_eq]
  simp [passed, State.setPc, State.charge, BitVec.add_assoc]
  omega

/-- The operand word starts at the last address exactly when the opcode stands at 0xFFFE (R234). -/
theorem passed_pc_last_iff (s : State) : (passed s 1).pc = 0xFFFF#16 ↔ s.pc = 0xFFFE#16 := by
  rw [passed_pc]
  constructor
  · intro h
    have := congrArg (· - 1#16) h
    simpa using this
  · intro h
    rw [h]
    rfl

theorem passWord_passed {s : State} (h : s.pc ≠ 0xFFFE#16) :
    passWord (passed s 1) = .ok (passed s 3) := by
  rw [passWord_eq (fun h' => h ((passed_pc_last_iff s).mp h'))]
  simp [passed, State.setPc, State.charge, BitVec.add_assoc]
  omega

theorem passWord_misplaced {s : State} (h : s.pc = 0xFFFE#16) :
    passWord (passed s 1) = .error (.outOfRange ⟨0xFFFF, .word, false⟩) :=
  passWord_last ((passed_pc_last_iff s).mpr h)

/-! ## The load shape -/

theorem loadAFrom_eq (ea : Word) (s : State) :
    loadAFrom ea s = .ok (loadA (s.mem.read ea.toNat) (s.charge 1)) := by
  simp [loadAFrom, State.readByte_eq, bind, Except.bind, pure, Except.pure]

section
variable (v : Byte) (s : State)

@[simp] theorem loadA_a : (loadA v s).a = v := rfl
@[simp] theorem loadA_x : (loadA v s).x = s.x := rfl
@[simp] theorem loadA_y : (loadA v s).y = s.y := rfl
@[simp] theorem loadA_pc : (loadA v s).pc = s.pc := rfl
@[simp] theorem loadA_sp : (loadA v s).sp = s.sp := rfl
@[simp] theorem loadA_flags : (loadA v s).flags = s.flags.setZN v := rfl
@[simp] theorem loadA_cyc : (loadA v s).cyc = s.cyc := rfl
@[simp] theorem loadA_fault : (loadA v s).fault = s.fault := rfl
@[simp] theorem loadA_defined : (loadA v s).defined = s.defined := rfl
@[simp] theorem loadA_mem : (loadA v s).mem = s.mem := rfl

end

/-! ## Taking a fault, and the end of an instruction -/

section
variable (s : State) (cause : Cause)

@[simp] theorem takeFault_a : (takeFault s cause).a = s.a := rfl
@[simp] theorem takeFault_x : (takeFault s cause).x = s.x := rfl
@[simp] theorem takeFault_y : (takeFault s cause).y = s.y := rfl
@[simp] theorem takeFault_pc : (takeFault s cause).pc = s.pc := rfl
@[simp] theorem takeFault_sp : (takeFault s cause).sp = s.sp := rfl
@[simp] theorem takeFault_flags : (takeFault s cause).flags = s.flags := rfl
@[simp] theorem takeFault_cyc : (takeFault s cause).cyc = s.cyc := rfl
@[simp] theorem takeFault_fault : (takeFault s cause).fault = some (cause.record s.pc) := rfl
@[simp] theorem takeFault_defined : (takeFault s cause).defined = s.defined := rfl
@[simp] theorem takeFault_mem : (takeFault s cause).mem = s.mem := rfl

end

@[simp] theorem complete_ok (s0 s' : State) : complete s0 (.ok s') = .next s' := rfl

@[simp] theorem complete_error (s0 : State) (cause : Cause) :
    complete s0 (.error cause) = .next (takeFault s0 cause) := rfl

/-- An instruction ends in a next state, always: its result, or the state it began in with a fault latched. -/
theorem complete_cases {s0 t : State} {result : Except Cause State}
    (h : complete s0 result = .next t) :
    result = .ok t ∨ ∃ cause, result = .error cause ∧ t = takeFault s0 cause := by
  cases result with
  | ok s' => simpa using h
  | error cause => simpa using h.symm

end Sys2Proof.Machine
end

