-- ==== Sys2Proof/Laws/Exec.lean ====
section
/-! SUPPORT. One equation per meaning, what a fetch gives, and what an instruction and a step can do, said once. -/

namespace Sys2Proof.Machine

/-- The cause of a word access at 0xFFFF, the only access of the core that fails (R59, R201). -/
def lastWord (write : Bool) : Cause := .outOfRange ⟨0xFFFF, .word, write⟩

/-! ## Equations of the meanings -/

theorem execNop_eq (b8 : Byte) (s : State) : execNop b8 s = .next (passed s 2) := by
  simp [execNop, operandDiscard, passOpcode_passed, passByte_passed, bind, Except.bind]

theorem execLdaImm_eq (imm : Byte) (s : State) :
    execLdaImm imm s = .next (loadA imm (passed s 2)) := by
  simp [execLdaImm, operandImm, passOpcode_passed, passByte_passed, bind, Except.bind, pure, Except.pure]

theorem execLdaZp_eq (zp : Byte) (s : State) :
    execLdaZp zp s =
      .next (loadA (s.mem.read (zp.setWidth 16).toNat) ((passed s 2).charge 1)) := by
  simp [execLdaZp, eaZp, passOpcode_passed, passByte_passed, loadAFrom_eq, bind, Except.bind, pure,
    Except.pure]

theorem execLdaZpX_eq (zp : Byte) (s : State) :
    execLdaZpX zp s =
      .next (loadA (s.mem.read ((add8 zp s.x).setWidth 16).toNat) ((passed s 2).charge 1)) := by
  simp [execLdaZpX, eaZpX, passOpcode_passed, passByte_passed, loadAFrom_eq, bind, Except.bind, pure,
    Except.pure]

theorem execLdaAbs_eq (addr : Word) {s : State} (h : s.pc ≠ 0xFFFE#16) :
    execLdaAbs addr s = .next (loadA (s.mem.read addr.toNat) ((passed s 3).charge 1)) := by
  simp [execLdaAbs, eaAbs, passOpcode_passed, passWord_passed h, loadAFrom_eq, bind, Except.bind, pure,
    Except.pure]

theorem execLdaAbs_misplaced (addr : Word) {s : State} (h : s.pc = 0xFFFE#16) :
    execLdaAbs addr s = .next (takeFault s (lastWord false)) := by
  simp [execLdaAbs, eaAbs, passOpcode_passed, passWord_misplaced h, bind, Except.bind, lastWord]

theorem execJmpAbs_eq (target : Word) {s : State} (h : s.pc ≠ 0xFFFE#16) :
    execJmpAbs target s = .next ((passed s 3).setPc target) := by
  simp [execJmpAbs, eaAbs, passOpcode_passed, passWord_passed h, bind, Except.bind, pure, Except.pure]

theorem execJmpAbs_misplaced (target : Word) {s : State} (h : s.pc = 0xFFFE#16) :
    execJmpAbs target s = .next (takeFault s (lastWord false)) := by
  simp [execJmpAbs, eaAbs, passOpcode_passed, passWord_misplaced h, bind, Except.bind, lastWord]

theorem execJmpInd_eq {ptr : Word} {s : State} (h : s.pc ≠ 0xFFFE#16) (hp : ptr ≠ 0xFFFF#16) :
    execJmpInd ptr s =
      .next (((passed s 3).charge 2).setPc
        (word (s.mem.read (ptr.toNat + 1)) (s.mem.read ptr.toNat))) := by
  simp [execJmpInd, eaInd, passOpcode_passed, passWord_passed h, State.readWord_eq _ hp, bind,
    Except.bind, pure, Except.pure]

theorem execJmpInd_noPointee {s : State} (h : s.pc ≠ 0xFFFE#16) :
    execJmpInd 0xFFFF#16 s = .next (takeFault s (lastWord false)) := by
  simp [execJmpInd, eaInd, passOpcode_passed, passWord_passed h, State.readWord_last, bind,
    Except.bind, lastWord]

theorem execJmpInd_misplaced (ptr : Word) {s : State} (h : s.pc = 0xFFFE#16) :
    execJmpInd ptr s = .next (takeFault s (lastWord false)) := by
  simp [execJmpInd, eaInd, passOpcode_passed, passWord_misplaced h, bind, Except.bind, lastWord]

/-- Memory after JSR pushes `ret` at `sp`. -/
def pushed (m : Memory) (sp ret : Word) : Memory :=
  (m.write sp.toNat (lowByte ret)).write (sp.toNat + 1) (highByte ret)

theorem execJsr_eq (target : Word) {s : State} (h : s.pc ≠ 0xFFFE#16) (hsp : s.sp ≠ 0xFFFF#16) :
    execJsr target s =
      .next ((((passed s 3).charge 2).setMem (pushed s.mem s.sp (s.pc + 3#16))).setPc target) := by
  have hsp' : (passed s 3).sp ≠ 0xFFFF#16 := hsp
  simp [execJsr, eaAbs, passOpcode_passed, passWord_passed h, State.writeWord_eq _ _ hsp, bind,
    Except.bind, pure, Except.pure, pushed]

theorem execJsr_pushFails (target : Word) {s : State} (h : s.pc ≠ 0xFFFE#16) (hsp : s.sp = 0xFFFF#16) :
    execJsr target s = .next (takeFault s (lastWord true)) := by
  simp [execJsr, eaAbs, passOpcode_passed, passWord_passed h, hsp, State.writeWord_last, bind,
    Except.bind, pure, Except.pure, lastWord]

theorem execJsr_misplaced (target : Word) {s : State} (h : s.pc = 0xFFFE#16) :
    execJsr target s = .next (takeFault s (lastWord false)) := by
  simp [execJsr, eaAbs, passOpcode_passed, passWord_misplaced h, bind, Except.bind, lastWord]

/-! ## What an instruction can do -/

/-- Every instruction answers a next state: either what its equation gives, when it completes, or the state it
began in with a word access at 0xFFFF latched. -/
theorem exec_cases (i : Instr) (s : State) :
    (completes i s = true ∧ ∃ t, exec i s = .next t ∧ t.fault = s.fault) ∨
      (completes i s = false ∧ ∃ write, exec i s = .next (takeFault s (lastWord write))) := by
  cases i with
  | nop b8 => exact .inl ⟨by rfl, _, execNop_eq b8 s, rfl⟩
  | ldaImm imm => exact .inl ⟨by rfl, _, execLdaImm_eq imm s, rfl⟩
  | ldaZp zp => exact .inl ⟨by rfl, _, execLdaZp_eq zp s, rfl⟩
  | ldaZpX zp => exact .inl ⟨by rfl, _, execLdaZpX_eq zp s, rfl⟩
  | ldaAbs addr =>
    by_cases h : s.pc = 0xFFFE#16
    · exact .inr ⟨by simp [completes, Instr.wellFormedAt, Instr.wellPlaced, Instr.length, h], _,
        execLdaAbs_misplaced addr h⟩
    · exact .inl ⟨by simp [completes, Instr.wellFormedAt, Instr.wellPlaced, Instr.pointeeExists, pushFits, h],
        _, execLdaAbs_eq addr h, rfl⟩
  | jmpAbs target =>
    by_cases h : s.pc = 0xFFFE#16
    · exact .inr ⟨by simp [completes, Instr.wellFormedAt, Instr.wellPlaced, Instr.length, h], _,
        execJmpAbs_misplaced target h⟩
    · exact .inl ⟨by simp [completes, Instr.wellFormedAt, Instr.wellPlaced, Instr.pointeeExists, pushFits, h],
        _, execJmpAbs_eq target h, rfl⟩
  | jmpInd ptr =>
    by_cases h : s.pc = 0xFFFE#16
    · exact .inr ⟨by simp [completes, Instr.wellFormedAt, Instr.wellPlaced, Instr.length, h], _,
        execJmpInd_misplaced ptr h⟩
    · by_cases hp : ptr = 0xFFFF#16
      · subst hp
        exact .inr ⟨by simp [completes, Instr.wellFormedAt, Instr.pointeeExists], _,
          execJmpInd_noPointee h⟩
      · exact .inl ⟨by
          simp [completes, Instr.wellFormedAt, Instr.wellPlaced, Instr.pointeeExists, pushFits, h, hp],
          _, execJmpInd_eq h hp, rfl⟩
  | jsr target =>
    by_cases h : s.pc = 0xFFFE#16
    · exact .inr ⟨by simp [completes, Instr.wellFormedAt, Instr.wellPlaced, Instr.length, h], _,
        execJsr_misplaced target h⟩
    · by_cases hsp : s.sp = 0xFFFF#16
      · exact .inr ⟨by simp [completes, pushFits, hsp], _, execJsr_pushFails target h hsp⟩
      · exact .inl ⟨by
          simp [completes, Instr.wellFormedAt, Instr.wellPlaced, Instr.pointeeExists, pushFits, h, hsp],
          _, execJsr_eq target h hsp, rfl⟩

/-- What an instruction never changes (R24): `X`, `Y`, `SP`, the flags but `Z` and `N`, and `DEFINED`. -/
theorem exec_keeps {i : Instr} {s t : State} (h : exec i s = .next t) :
    t.x = s.x ∧ t.y = s.y ∧ t.sp = s.sp ∧ t.flags.c = s.flags.c ∧ t.flags.i = s.flags.i ∧
      t.flags.d = s.flags.d ∧ t.flags.b = s.flags.b ∧ t.flags.v = s.flags.v ∧ t.defined = s.defined := by
  cases i <;> simp only [exec] at h
  case nop b8 => rw [execNop_eq] at h; cases h; simp
  case ldaImm imm => rw [execLdaImm_eq] at h; cases h; simp
  case ldaZp zp => rw [execLdaZp_eq] at h; cases h; simp
  case ldaZpX zp => rw [execLdaZpX_eq] at h; cases h; simp
  case ldaAbs addr =>
    by_cases hpc : s.pc = 0xFFFE#16
    · rw [execLdaAbs_misplaced addr hpc] at h; cases h; simp
    · rw [execLdaAbs_eq addr hpc] at h; cases h; simp
  case jmpAbs target =>
    by_cases hpc : s.pc = 0xFFFE#16
    · rw [execJmpAbs_misplaced target hpc] at h; cases h; simp
    · rw [execJmpAbs_eq target hpc] at h; cases h; simp
  case jmpInd ptr =>
    by_cases hpc : s.pc = 0xFFFE#16
    · rw [execJmpInd_misplaced ptr hpc] at h; cases h; simp
    · by_cases hp : ptr = 0xFFFF#16
      · subst hp; rw [execJmpInd_noPointee hpc] at h; cases h; simp
      · rw [execJmpInd_eq hpc hp] at h; cases h; simp
  case jsr target =>
    by_cases hpc : s.pc = 0xFFFE#16
    · rw [execJsr_misplaced target hpc] at h; cases h; simp
    · by_cases hsp : s.sp = 0xFFFF#16
      · rw [execJsr_pushFails target hpc hsp] at h; cases h; simp
      · rw [execJsr_eq target hpc hsp] at h; cases h; simp

/-! ## What a fetch gives -/

theorem fetchInstr_unknown {s : State} (h : operandForm (s.mem.read s.pc.toNat) = none) :
    fetchInstr s = .error (.unknownOpcode (s.mem.read s.pc.toNat)) := by
  simp [fetchInstr, fetch8_eq, h, bind, Except.bind, throw, throwThe, MonadExceptOf.throw]

theorem fetchInstr_oneByte {s : State} {mk : Byte → Instr}
    (h : operandForm (s.mem.read s.pc.toNat) = some (.oneByte mk)) :
    fetchInstr s = .ok (mk (s.mem.read (s.pc + 1#16).toNat)) := by
  simp [fetchInstr, fetch8_eq, h, bind, Except.bind, pure, Except.pure]

theorem fetchInstr_twoBytes {s : State} {mk : Word → Instr}
    (h : operandForm (s.mem.read s.pc.toNat) = some (.twoBytes mk)) (hpc : s.pc ≠ 0xFFFE#16) :
    fetchInstr s =
      .ok (mk (word (s.mem.read ((s.pc + 1#16).toNat + 1)) (s.mem.read (s.pc + 1#16).toNat))) := by
  have hne : ((s.charge 1).setPc (s.pc + 1#16)).pc ≠ 0xFFFF#16 :=
    fun h' => hpc ((passed_pc_last_iff s).mp h')
  simp only [fetchInstr, fetch8_eq, h, bind, Except.bind, fetch16_eq hne, pure, Except.pure]
  rfl

theorem fetchInstr_misplaced {s : State} {mk : Word → Instr}
    (h : operandForm (s.mem.read s.pc.toNat) = some (.twoBytes mk)) (hpc : s.pc = 0xFFFE#16) :
    fetchInstr s = .error (lastWord false) := by
  have hlast : ((s.charge 1).setPc (s.pc + 1#16)).pc = 0xFFFF#16 := (passed_pc_last_iff s).mpr hpc
  simp only [fetchInstr, fetch8_eq, h, bind, Except.bind, fetch16_last hlast, lastWord]

/-! ## What a step can do -/

/-- A step answers a next state in three ways: nothing, in a state whose call has returned `Done`; one
instruction; or the fault its fetch raised. -/
theorem step_cases {s t : State} (h : step s = .next t) :
    s.defined = true ∧ s.fault = none ∧
      ((s.cyc ≤ 0 ∧ t = s) ∨
        (0 < s.cyc ∧ ∃ i, fetchInstr s = .ok i ∧ exec i s = .next t) ∨
        (0 < s.cyc ∧ ∃ cause, fetchInstr s = .error cause ∧ t = takeFault s cause)) := by
  unfold step stepBody at h
  by_cases hd : s.defined = true
  · simp only [hd, if_true] at h
    cases hf : s.fault with
    | some record => simp [hf] at h
    | none =>
      simp only [hf] at h
      refine ⟨hd, rfl, ?_⟩
      by_cases hc : 0 < s.cyc
      · simp only [hc, if_true, iterate] at h
        cases hfetch : fetchInstr s with
        | ok i =>
          simp only [hfetch] at h
          exact .inr (.inl ⟨hc, i, rfl, h⟩)
        | error cause =>
          simp only [hfetch, Host.Outcome.next.injEq] at h
          exact .inr (.inr ⟨hc, cause, rfl, h.symm⟩)
      · simp only [hc, if_false, Host.Outcome.next.injEq] at h
        exact .inl ⟨by omega, h.symm⟩
  · simp [hd] at h

/-- In a state with a call under way, a step is one iteration (R111). -/
theorem step_of_busy {s : State} (h : s.busy = true) : step s = iterate s := by
  simp only [State.busy, Bool.and_eq_true, decide_eq_true_eq, Option.isNone_iff_eq_none] at h
  simp [step, stepBody, h.1.1, h.1.2, h.2]

end Sys2Proof.Machine
end

