-- ==== Sys2Proof/Laws/PerInstr.lean ====
section
/-! SUPPORT. Statements made per instruction. `Encoding`: the decoder gives back an encoded instruction and the
bytes that follow it (spec/30_encoding.md R80 to R85). -/

namespace Sys2Proof.Laws.Encoding

/-- Decoding what the encoder wrote gives the instruction and leaves the rest. -/
def Statement (i : Instr) : Prop := ∀ rest : List Byte, decode (encode i ++ rest) = .ok (i, rest)

theorem nop (b8 : Byte) : Statement (.nop b8) := fun _ => rfl

theorem ldaImm (imm : Byte) : Statement (.ldaImm imm) := fun _ => rfl

theorem ldaZp (zp : Byte) : Statement (.ldaZp zp) := fun _ => rfl

theorem ldaZpX (zp : Byte) : Statement (.ldaZpX zp) := fun _ => rfl

/-- A two-byte operand comes back because its bytes are joined in the order they were written. -/
theorem twoBytes {op : Byte} {mk : Word → Instr} (h : operandForm op = some (.twoBytes mk)) (w : Word)
    (rest : List Byte) : decode (op :: lowByte w :: highByte w :: rest) = .ok (mk w, rest) := by
  simp only [decode, h, word_highByte_lowByte]

theorem ldaAbs (addr : Word) : Statement (.ldaAbs addr) := twoBytes rfl addr

theorem jmpAbs (target : Word) : Statement (.jmpAbs target) := twoBytes rfl target

theorem jmpInd (ptr : Word) : Statement (.jmpInd ptr) := twoBytes rfl ptr

theorem jsr (target : Word) : Statement (.jsr target) := twoBytes rfl target

end Sys2Proof.Laws.Encoding
end

