-- ==== Sys2Proof/Tests/Slice0.lean ====
section
/-! SUPPORT. Tests. Expected results come from spec/95_test_vectors.md (the vector's id is named) or from the rule named;
no test takes its expected result from the model. Then one witness per statement that has hypotheses: a
concrete state and operands that meet all of them. -/

namespace Sys2Proof.Tests

open Sys2Proof.Machine

/-! ## Helpers -/

/-- A state as after `Reset` but for `PC`, memory and a budget of `cyc` (the convention of 95_test_vectors.md). -/
def boundary (pc : Word) (cyc : Int) (mem : Memory) : State := { State.reset with pc, cyc, mem }

/-- The next state of a step, if it answers one. -/
def after (o : Host.Outcome State Fault Refusal) : Option State :=
  match o with
  | .next t => some t
  | .fault _ => none
  | .refused _ => none

/-- What a host operation answers with the state it leaves, if it answers. -/
def hostAfter (o : Host.Outcome (State × HarnessAnswer) Fault Refusal) : Option (State × HarnessAnswer) :=
  match o with
  | .next t => some t
  | .fault _ => none
  | .refused _ => none

/-- Why a host operation is refused, if it is. -/
def hostRefusal (o : Host.Outcome (State × HarnessAnswer) Fault Refusal) : Option Refusal :=
  match o with
  | .next _ => none
  | .fault _ => none
  | .refused r => some r

/-! ## Well-formedness: an ill-formed placement for each check -/

theorem test_wellPlaced_refuses_word_fetch_at_top :
    (Instr.ldaAbs 0x1234#16).wellFormedAt 0xFFFE#16 = false := by decide

theorem test_pointeeExists_refuses_last_address :
    (Instr.jmpInd 0xFFFF#16).wellFormedAt 0x8000#16 = false := by decide

theorem test_wellFormedAt_admits :
    (Instr.nop 0xEA#8).wellFormedAt 0xFFFE#16 = true ∧
      (Instr.jmpInd 0xFFFE#16).wellFormedAt 0xFFFF#16 = true := by decide

/-! ## Decoding: a word of each constructor, from the encodings of R81 and R85 -/

def decoded (bytes : List Byte) : Option (Instr × List Byte) :=
  match decode bytes with
  | .ok r => some r
  | .error _ => none

def rejected (bytes : List Byte) : Option DecodeError :=
  match decode bytes with
  | .ok _ => none
  | .error e => some e

theorem test_decode_nop : decoded [0b11101010#8, 0x77#8, 0xA9#8] = some (.nop 0x77#8, [0xA9#8]) := by decide
theorem test_decode_ldaImm : decoded [0b10101001#8, 0x45#8] = some (.ldaImm 0x45#8, []) := by decide
theorem test_decode_ldaZp : decoded [0b10100101#8, 0x10#8] = some (.ldaZp 0x10#8, []) := by decide
theorem test_decode_ldaZpX : decoded [0b10110101#8, 0x42#8] = some (.ldaZpX 0x42#8, []) := by decide
theorem test_decode_ldaAbs : decoded [0b10101101#8, 0x34#8, 0x12#8] = some (.ldaAbs 0x1234#16, []) := by decide
theorem test_decode_jmpAbs : decoded [0b01001100#8, 0x00#8, 0x80#8] = some (.jmpAbs 0x8000#16, []) := by decide
theorem test_decode_jmpInd : decoded [0b01101100#8, 0xFF#8, 0x02#8] = some (.jmpInd 0x02FF#16, []) := by decide
theorem test_decode_jsr : decoded [0b00100000#8, 0x00#8, 0x90#8] = some (.jsr 0x9000#16, []) := by decide

/-- D-2, D-3: 0x00, 0xFF and the neighbours of the legal opcodes, the ends of the ranges of R86 among them. -/
theorem test_decode_rejects_neighbours :
    [0x00#8, 0x1F#8, 0x21#8, 0x4B#8, 0x4D#8, 0x6B#8, 0x6D#8, 0xA4#8, 0xA6#8, 0xA8#8, 0xAA#8, 0xAC#8,
      0xAE#8, 0xB4#8, 0xB6#8, 0xE9#8, 0xEB#8, 0xFF#8].all
        (fun op => rejected [op, 0x00#8, 0x00#8] = some (.unknownOpcode op)) = true := by decide

theorem test_decode_rejects_truncated :
    rejected [0xAD#8, 0x34#8] = some (.truncated 0xAD#8) ∧ rejected [0xEA#8] = some (.truncated 0xEA#8) ∧
      rejected [] = some .empty := by decide

/-- The table's numbering: bit 0 is the least significant bit of the first byte. -/
theorem test_decodeTableWord :
    decodeTableWord 16 0x45A9 = some (.ldaImm 0x45#8) ∧ decodeTableWord 24 0x80004C = some (.jmpAbs 0x8000#16) ∧
      decodeTableWord 16 0x0000 = none := by decide

theorem test_withFetchWord_runs_after_reset :
    (after (step (State.reset.withFetchWord 24 0x80004C))).map (·.pc) = some 0x8000#16 := by decide

/-! ## Instructions -/

/-- N-1. -/
theorem test_nop_skips_two_bytes :
    (after (step (boundary 0x3000#16 2 [(0x3000, 0xEA#8), (0x3001, 0x77#8)]))).map (fun t => (t.pc, t.cyc)) =
      some (0x3002#16, 0) := by decide

/-- N-3: the discarded byte is at 0x0000. -/
theorem test_nop_wraps :
    (after (step (boundary 0xFFFF#16 2 [(0x0000, 0xA9#8), (0xFFFF, 0xEA#8)]))).map (·.pc) = some 0x0001#16 := by
  decide

/-- L-2. -/
theorem test_ldaImm_negative :
    (after (step (boundary 0xFFFC#16 2 [(0xFFFC, 0xA9#8), (0xFFFD, 0x80#8)]))).map
      (fun t => (t.a, t.flags.z, t.flags.n, t.pc)) = some (0x80#8, false, true, 0xFFFE#16) := by decide

/-- L-6. -/
theorem test_ldaImm_wraps :
    (after (step (boundary 0xFFFF#16 2 [(0x0000, 0x42#8), (0xFFFF, 0xA9#8)]))).map (fun t => (t.a, t.pc)) =
      some (0x42#8, 0x0001#16) := by decide

/-- Z-2. -/
theorem test_ldaZp_stays_in_page :
    (after (step (boundary 0xFFFC#16 3 [(0x00FF, 0x33#8), (0x0100, 0x44#8), (0xFFFC, 0xA5#8), (0xFFFD, 0xFF#8)]))).map
      (fun t => (t.a, t.cyc)) = some (0x33#8, 0) := by decide

/-- Z-4. -/
theorem test_ldaZp_zero :
    (after (step (boundary 0xFFFC#16 3 [(0xFFFC, 0xA5#8), (0xFFFD, 0x20#8)]))).map
      (fun t => (t.a, t.flags.z, t.flags.n)) = some (0x00#8, true, false) := by decide

/-- X-2: the address wraps to 0x0000. -/
theorem test_ldaZpX_wraps :
    (after (step { boundary 0xFFFC#16 3
        [(0x0000, 0x11#8), (0x00FE, 0x33#8), (0x0100, 0x22#8), (0xFFFC, 0xB5#8), (0xFFFD, 0xFF#8)] with
          x := 0x01#8 })).map (fun t => (t.a, t.x, t.cyc)) = some (0x11#8, 0x01#8, 0) := by decide

/-- X-4. -/
theorem test_ldaZpX_adds :
    (after (step { boundary 0xFFFC#16 3 [(0x0090, 0x01#8), (0xFFFC, 0xB5#8), (0xFFFD, 0x80#8)] with
        x := 0x10#8 })).map (·.a) = some 0x01#8 := by decide

/-- A-5: opcode at 0xFFFF, operand at 0x0000. -/
theorem test_ldaAbs_wraps :
    (after (step (boundary 0xFFFF#16 4 [(0x0000, 0x05#8), (0x0005, 0x99#8), (0xFFFF, 0xAD#8)]))).map
      (fun t => (t.a, t.flags.n, t.pc, t.cyc)) = some (0x99#8, true, 0x0002#16, 0) := by decide

/-- A-3. -/
theorem test_ldaAbs_faults_at_top :
    (after (step (boundary 0xFFFE#16 7 [(0xFFFE, 0xAD#8)]))).map (fun t => (t.fault, t.pc, t.cyc)) =
      some (some (.outOfRangeAccess 0xFFFF#16 .word false 0xFFFE#16), 0xFFFE#16, 7) := by decide

/-- V1.8. -/
theorem test_jmpAbs :
    (after (step (boundary 0xFFFC#16 3 [(0xFFFC, 0x4C#8), (0xFFFE, 0x80#8)]))).map (fun t => (t.pc, t.cyc)) =
      some (0x8000#16, 0) := by decide

/-- J-6. -/
theorem test_jmpAbs_wraps :
    (after (step (boundary 0xFFFF#16 3 [(0x0000, 0x34#8), (0x0001, 0x12#8), (0xFFFF, 0x4C#8)]))).map (·.pc) =
      some 0x1234#16 := by decide

/-- I-2: no page wrap. -/
theorem test_jmpInd_crosses_page :
    (after (step (boundary 0xFFFC#16 5
        [(0x0200, 0x56#8), (0x02FF, 0x34#8), (0x0300, 0x12#8), (0xFFFC, 0x6C#8), (0xFFFD, 0xFF#8),
          (0xFFFE, 0x02#8)]))).map (fun t => (t.pc, t.cyc)) = some (0x1234#16, 0) := by decide

/-- I-3. -/
theorem test_jmpInd_faults_on_last_pointer :
    (after (step (boundary 0x8000#16 5 [(0x8000, 0x6C#8), (0x8001, 0xFF#8), (0x8002, 0xFF#8)]))).map
      (fun t => (t.fault, t.pc, t.cyc)) =
      some (some (.outOfRangeAccess 0xFFFF#16 .word false 0x8000#16), 0x8000#16, 5) := by decide

/-- S-2. -/
theorem test_jsr_pushes_next_address :
    (after (step (boundary 0x8000#16 5 [(0x8000, 0x20#8), (0x8001, 0x34#8), (0x8002, 0x12#8)]))).map
      (fun t => (t.mem.read 0x0100, t.mem.read 0x0101, t.pc, t.sp, t.cyc)) =
      some (0x03#8, 0x80#8, 0x1234#16, 0x0100#16, 0) := by decide

/-- S-7. -/
theorem test_jsr_push_faults :
    (after (step { boundary 0x8000#16 5 [(0x8000, 0x20#8), (0x8002, 0x90#8)] with sp := 0xFFFF#16 })).map
      (fun t => (t.fault, t.pc, t.mem.read 0xFFFF)) =
      some (some (.outOfRangeAccess 0xFFFF#16 .word true 0x8000#16), 0x8000#16, 0x00#8) := by decide

/-- V1.9, D-1. -/
theorem test_unknown_opcode :
    (after (step (boundary 0xFFFC#16 10 [(0xFFFC, 0xFF#8)]))).map (fun t => (t.fault, t.pc, t.cyc)) =
      some (some (.unknownOpcode 0xFF#8 0xFFFC#16), 0xFFFC#16, 10) := by decide

/-! ## Memory, flags and the host -/

/-- M-2. -/
theorem test_writeWord_low_first :
    (Memory.initialized.writeWord 0x1234#16 0x00FF).toOption.map (fun m => (m.read 0x00FF, m.read 0x0100)) =
      some (0x34#8, 0x12#8) := by decide

/-- M-5, M-7: both as the host sees them. -/
theorem test_host_access_out_of_range :
    (hostAfter (harness (.writeWord 0xABCD#16 0xFFFF) (boundary 0xFFFC#16 0 [(0xFFFF, 0x11#8)]))).map
        (fun r => (r.2, r.1.mem.read 0xFFFF)) =
        some (.outOfRangeAccess ⟨0xFFFF, .word, true⟩, 0x11#8) ∧
      (hostAfter (harness (.readByte 0x10000) State.reset)).map (fun r => (r.2, r.1.fault)) =
        some (.outOfRangeAccess ⟨0x10000, .byte, false⟩, none) := by decide

/-- R34: the MOS layout, bit 5 set. -/
theorem test_packP :
    Flags.packP { c := true, z := false, i := false, d := false, b := false, v := false, n := true } = 0xA1#8 := by
  decide

/-- V1.6: a budget of 2 ends in `Done`, a budget of 3 in the fault of the next byte. -/
theorem test_execute_done_then_fault :
    (hostAfter (harness (.execute 2) (boundary 0xFFFC#16 0 [(0xFFFC, 0xA9#8), (0xFFFD, 0x45#8)]))).map
        (fun r => (r.2, r.1.a, r.1.pc, r.1.cyc)) = some (.done, 0x45#8, 0xFFFE#16, 0) ∧
      (hostAfter (harness (.execute 3) (boundary 0xFFFC#16 0 [(0xFFFC, 0xA9#8), (0xFFFD, 0x45#8)]))).map
        (fun r => (r.2, r.1.a, r.1.pc, r.1.cyc)) =
        some (.faulted (.unknownOpcode 0x00#8 0xFFFE#16), 0x45#8, 0xFFFE#16, 1) := by decide

/-- V1.10, B-2. -/
theorem test_execute_overspends :
    (hostAfter (harness (.execute 1) (boundary 0xFFFC#16 0 [(0xFFFC, 0x4C#8), (0xFFFE, 0x80#8)]))).map
        (fun r => (r.2, r.1.pc, r.1.cyc)) = some (.done, 0x8000#16, -2) ∧
      (hostAfter (harness (.execute (-3)) State.reset)).map (fun r => (r.2, r.1.pc, r.1.cyc)) =
        some (.done, 0xFFFC#16, -3) := by decide

/-- R105: `A` and `X` are told apart, and `CYC` is read. -/
theorem test_host_reads_registers :
    (hostAfter (harness (.observe .A) { State.reset with a := 0x11#8, x := 0x22#8 })).map (·.2) =
        some (.byte 0x11#8) ∧
      (hostAfter (harness (.observe .X) { State.reset with a := 0x11#8, x := 0x22#8 })).map (·.2) =
        some (.byte 0x22#8) ∧
      (hostAfter (harness (.observe .CYC) { State.reset with cyc := -4 })).map (·.2) =
        some (.integer (-4)) := by decide

/-- B-7, D-4. -/
theorem test_execute_refused :
    hostRefusal (harness (.execute 5) { State.reset with defined := false }) = some .undefinedBeforeReset ∧
      hostRefusal (harness (.execute 5) { State.reset with fault := some (.unknownOpcode 0xFF#8 0xFFFC#16) }) =
        some .faultLatched := by decide

/-! ## Witnesses: concrete states and operands that meet the hypotheses of each statement -/

/-- A state with a call under way whose opcode, at `pc`, is `op` and whose other bytes are 0x00. -/
def running (pc : Word) (op : Byte) : State := boundary pc 9 [(pc.toNat, op)]

/-- A faulted state. -/
def latched : State := { State.reset with fault := some (.unknownOpcode 0x00#8 0xFFFC#16) }

/-- A state never reset. -/
def unborn : State := { State.reset with defined := false }

theorem test_witness_HostReset :
    State.reset.busy = false ∧ unborn.busy = false ∧ latched.busy = false ∧ unborn.defined = false ∧
      latched.fault.isSome = true ∧ State.reset.cyc ≤ 0 := by decide

theorem test_witness_Nop :
    (running 0xFFFF#16 0xEA#8).busy = true ∧
      (running 0xFFFF#16 0xEA#8).mem.read (running 0xFFFF#16 0xEA#8).pc.toNat = 0xEA#8 := by decide

theorem test_witness_LdaImm :
    (running 0xFFFF#16 0xA9#8).busy = true ∧
      (running 0xFFFF#16 0xA9#8).mem.read (running 0xFFFF#16 0xA9#8).pc.toNat = 0xA9#8 := by decide

theorem test_witness_LdaZp :
    (running 0xFFFE#16 0xA5#8).busy = true ∧
      (running 0xFFFE#16 0xA5#8).mem.read (running 0xFFFE#16 0xA5#8).pc.toNat = 0xA5#8 ∧
      (running 0x00FF#16 0xA5#8).mem.read (0xFF#8).toNat = 0xA5#8 := by decide

theorem test_witness_LdaZpX :
    (running 0xFFFE#16 0xB5#8).busy = true ∧
      (running 0xFFFE#16 0xB5#8).mem.read (running 0xFFFE#16 0xB5#8).pc.toNat = 0xB5#8 ∧
      (running 0x0000#16 0xB5#8).mem.read (((0xFF#8).toNat + (0x01#8).toNat) % 256) = 0xB5#8 := by decide

/-- Clauses of the 3-byte instructions meet at `PC = 0xFFFE`: one state on it and one beside it on either side. -/
theorem test_witness_LdaAbs :
    (running 0xFFFD#16 0xAD#8).busy = true ∧
      (running 0xFFFD#16 0xAD#8).mem.read (running 0xFFFD#16 0xAD#8).pc.toNat = 0xAD#8 ∧
      (running 0xFFFD#16 0xAD#8).pc ≠ 0xFFFE#16 ∧ (running 0xFFFF#16 0xAD#8).pc ≠ 0xFFFE#16 ∧
      (running 0xFFFF#16 0xAD#8).mem.read (0xFFFF#16).toNat = 0xAD#8 ∧
      (running 0xFFFE#16 0xAD#8).busy = true ∧
      (running 0xFFFE#16 0xAD#8).mem.read (running 0xFFFE#16 0xAD#8).pc.toNat = 0xAD#8 ∧
      (running 0xFFFE#16 0xAD#8).pc = 0xFFFE#16 := by decide

theorem test_witness_JmpAbs :
    (running 0xFFFD#16 0x4C#8).busy = true ∧
      (running 0xFFFD#16 0x4C#8).mem.read (running 0xFFFD#16 0x4C#8).pc.toNat = 0x4C#8 ∧
      (running 0xFFFD#16 0x4C#8).pc ≠ 0xFFFE#16 ∧ (running 0xFFFE#16 0x4C#8).busy = true ∧
      (running 0xFFFE#16 0x4C#8).mem.read (running 0xFFFE#16 0x4C#8).pc.toNat = 0x4C#8 ∧
      (running 0xFFFE#16 0x4C#8).pc = 0xFFFE#16 := by decide

theorem test_witness_JmpInd :
    (running 0xFFFD#16 0x6C#8).busy = true ∧
      (running 0xFFFD#16 0x6C#8).mem.read (running 0xFFFD#16 0x6C#8).pc.toNat = 0x6C#8 ∧
      (running 0xFFFD#16 0x6C#8).pc ≠ 0xFFFE#16 ∧ (0xFFFE#16 : Word) ≠ 0xFFFF#16 ∧
      (running 0xFFFE#16 0x6C#8).busy = true ∧
      (running 0xFFFE#16 0x6C#8).mem.read (running 0xFFFE#16 0x6C#8).pc.toNat = 0x6C#8 ∧
      (running 0xFFFE#16 0x6C#8).pc = 0xFFFE#16 := by decide

theorem test_witness_Jsr :
    (running 0xFFFD#16 0x20#8).busy = true ∧ (running 0xFFFD#16 0x20#8).mem.wf = true ∧
      (running 0xFFFD#16 0x20#8).mem.read (running 0xFFFD#16 0x20#8).pc.toNat = 0x20#8 ∧
      (running 0xFFFD#16 0x20#8).pc ≠ 0xFFFE#16 ∧
      { running 0xFFFD#16 0x20#8 with sp := 0xFFFE#16 }.sp ≠ 0xFFFF#16 ∧
      { running 0xFFFD#16 0x20#8 with sp := 0xFFFF#16 }.sp = 0xFFFF#16 ∧
      (running 0xFFFE#16 0x20#8).busy = true ∧
      (running 0xFFFE#16 0x20#8).mem.read (running 0xFFFE#16 0x20#8).pc.toNat = 0x20#8 ∧
      (running 0xFFFE#16 0x20#8).pc = 0xFFFE#16 := by decide

/-- A load that completes and one that faults. -/
theorem test_witness_LoadsFrame :
    (∃ t, exec (.ldaAbs 0xFFFF#16) (running 0xFFFD#16 0xAD#8) = .next t) ∧
      completes (.ldaAbs 0xFFFF#16) (running 0xFFFD#16 0xAD#8) = true ∧
      (∃ t, exec (.ldaAbs 0xFFFF#16) (running 0xFFFE#16 0xAD#8) = .next t) ∧
      completes (.ldaAbs 0xFFFF#16) (running 0xFFFE#16 0xAD#8) = false :=
  ⟨⟨_, rfl⟩, by decide, ⟨_, rfl⟩, by decide⟩

theorem test_witness_NopAndJumpsFrame :
    (∃ t, exec (.nop 0x00#8) (running 0xFFFF#16 0xEA#8) = .next t) ∧
      completes (.nop 0x00#8) (running 0xFFFF#16 0xEA#8) = true ∧
      ∃ t, exec (.jmpInd 0xFFFF#16) (running 0xFFFD#16 0x6C#8) = .next t :=
  ⟨⟨_, rfl⟩, by decide, ⟨_, rfl⟩⟩

theorem test_witness_JsrFrame :
    (∃ t, exec (.jsr 0x9000#16) (running 0x8000#16 0x20#8) = .next t) ∧
      completes (.jsr 0x9000#16) (running 0x8000#16 0x20#8) = true ∧
      (∃ t, exec (.jsr 0x9000#16) (running 0xFFFE#16 0x20#8) = .next t) ∧
      completes (.jsr 0x9000#16) (running 0xFFFE#16 0x20#8) = false ∧
      (0x0102 : Nat) ≠ State.reset.sp.toNat + 1 :=
  ⟨⟨_, rfl⟩, by decide, ⟨_, rfl⟩, by decide, by decide⟩

theorem test_witness_OutOfRange :
    (Instr.jsr 0x0000#16).length = 3 ∧ (running 0xFFFE#16 0x20#8).pc = 0xFFFE#16 ∧
      (running 0xFFFF#16 0x6C#8).pc ≠ 0xFFFE#16 ∧
      { running 0x8000#16 0x20#8 with sp := 0xFFFF#16 }.sp = 0xFFFF#16 ∧
      ¬((Instr.jmpInd 0xFFFE#16).length = 3 ∧ (running 0xFFFD#16 0x6C#8).pc = 0xFFFE#16) ∧
      Instr.jmpInd 0xFFFE#16 ≠ .jmpInd 0xFFFF#16 ∧
      ¬((∃ target, Instr.jmpInd 0xFFFE#16 = .jsr target) ∧ (running 0xFFFD#16 0x6C#8).sp = 0xFFFF#16) :=
  ⟨by decide, by decide, by decide, by decide, by decide, by decide, fun h => absurd h.2 (by decide)⟩

theorem test_witness_UnknownOpcode :
    (running 0xFFFF#16 0xEB#8).busy = true ∧
      (running 0xFFFF#16 0xEB#8).mem.read (running 0xFFFF#16 0xEB#8).pc.toNat ∉
        [0xEA#8, 0xA9#8, 0xA5#8, 0xB5#8, 0xAD#8, 0x4C#8, 0x6C#8, 0x20#8] := by decide

theorem test_witness_FaultStaysLatched :
    latched.defined = true ∧ latched.fault = some (.unknownOpcode 0x00#8 0xFFFC#16) ∧
      HarnessOp.writeByte 0x0000 0x01#8 ≠ .reset ∧
      ∃ r, harness (.writeByte 0x0000 0x01#8) latched = .next r :=
  ⟨by decide, by decide, by decide, _, rfl⟩

theorem test_witness_StepRunsTheDecodedInstruction :
    (running 0xFFFE#16 0xAD#8).busy = true ∧
      decoded [(running 0xFFFE#16 0xAD#8).mem.read 0xFFFE, (running 0xFFFE#16 0xAD#8).mem.read 0xFFFF,
        (running 0xFFFE#16 0xAD#8).mem.read 0x0000] = some (.ldaAbs 0x0000#16, []) := by decide

theorem test_witness_PlacedTableWord :
    unborn.mem.wf = true ∧ decodeTableWord 24 0x120020 = some (.jsr 0x1200#16) := by decide

theorem test_witness_Fetches :
    (running 0xFFFE#16 0x00#8).pc ≠ 0xFFFF#16 ∧ (running 0xFFFF#16 0x00#8).pc = 0xFFFF#16 := by decide

theorem test_witness_ZeroAndNegative :
    completes (.ldaZp 0xFF#8) (running 0x8000#16 0xA5#8) = true ∧
      (∃ t, exec (.ldaZp 0xFF#8) (running 0x8000#16 0xA5#8) = .next t) ∧
      { running 0x8000#16 0xEA#8 with a := 0x80#8, flags := { Flags.clear with n := true } }.znOfA = true ∧
      ∃ t, step { running 0x8000#16 0xEA#8 with a := 0x80#8, flags := { Flags.clear with n := true } } =
        .next t :=
  ⟨by decide, ⟨_, rfl⟩, by decide, _, rfl⟩

theorem test_witness_ByteWrite :
    Memory.initialized.wf = true ∧ (0xFFFF : Nat) < 65536 ∧ (0x0000 : Nat) ≠ 0xFFFF ∧ 65536 ≤ (0x10000 : Nat) := by
  decide

theorem test_witness_WordBytes :
    Memory.initialized.wf = true ∧ (0xFFFE : Nat) + 1 < 65536 ∧ (0xFFFE : Nat) ≤ 0xFFFE ∧
      (0xFFFF : Nat) ≤ 0xFFFF := by decide

theorem test_witness_CanonicalMemories :
    Memory.wf [(0x0000, 0x01#8)] = true ∧ Memory.wf (Memory.initialized.write 0x0000 0x01#8) = true ∧
      ∀ addr : Nat, addr < 65536 →
        Memory.read [(0x0000, 0x01#8)] addr = (Memory.initialized.write 0x0000 0x01#8).read addr :=
  ⟨by decide, by decide, fun _ _ => rfl⟩

/-- JSR to `SP` from 0x8000 pushes 03 80, an illegal opcode; from 0x80E7 with `SP = 0xFFFE` it pushes EA 80, a NOP. -/
theorem test_witness_PushedBytes :
    (∃ s t, s = running 0x8000#16 0x20#8 ∧ s.mem.wf = true ∧ s.pc ≠ 0xFFFE#16 ∧ s.sp ≠ 0xFFFF#16 ∧
        exec (.jsr s.sp) s = .next t ∧ t.busy = true ∧
        (operandForm (lowByte (s.pc + 3#16))).isNone = true) ∧
      ∃ s t, s = { running 0x80E7#16 0x20#8 with sp := 0xFFFE#16 } ∧ s.mem.wf = true ∧
        s.pc ≠ 0xFFFE#16 ∧ s.sp ≠ 0xFFFF#16 ∧ exec (.jsr s.sp) s = .next t ∧ t.busy = true ∧
        decoded [lowByte (s.pc + 3#16), highByte (s.pc + 3#16), s.mem.read (s.sp + 2#16).toNat] =
          some (.nop 0x80#8, [0x00#8]) :=
  ⟨⟨_, _, rfl, by decide, by decide, by decide, rfl, by decide, by decide⟩,
    ⟨_, _, rfl, by decide, by decide, by decide, rfl, by decide, by decide⟩⟩

theorem test_witness_Costs :
    completes (.jsr 0x9000#16) (running 0x8000#16 0x20#8) = true ∧ (running 0x8000#16 0x01#8).busy = true ∧
      (operandForm ((running 0x8000#16 0x01#8).mem.read 0x8000)).isNone = true ∧
      ∃ t, step (running 0x8000#16 0x01#8) = .next t :=
  ⟨by decide, by decide, by decide, _, rfl⟩

/-- One iteration that completes and one that faults. -/
theorem test_witness_Iteration :
    (running 0x8000#16 0x20#8).busy = true ∧ (running 0x8000#16 0x01#8).busy = true := by decide

theorem test_witness_BudgetSpent :
    State.reset.defined = true ∧ State.reset.fault = none ∧ State.reset.cyc ≤ 0 := by decide

theorem test_witness_ExecuteEnters :
    unborn.defined = false ∧ latched.defined = true ∧ latched.fault.isSome = true ∧
      State.reset.defined = true ∧ State.reset.fault = none := by decide

theorem test_witness_NoBudget : (0 : Int) ≤ 0 ∧ (-1 : Int) ≤ 0 ∧ (0 : Int) < 1 := by decide

/-- A call whose first instruction, a NOP, completes. -/
theorem test_witness_FirstInstruction :
    ∃ t, step { boundary 0x8000#16 0 [(0x8000, 0xEA#8)] with cyc := 1 } = .next t ∧ t.fault = none :=
  ⟨_, rfl, by decide⟩

theorem test_witness_AgreesWithRun :
    (∃ s' answer, execute 1 (boundary 0x8000#16 0 [(0x8000, 0xEA#8)]) = .next (s', answer) ∧ s'.fault = none) ∧
      (∃ s' answer record, execute 1 State.reset = .next (s', answer) ∧ s'.fault = some record) ∧
      (1 : Int).toNat < 2 :=
  ⟨⟨_, _, rfl, by decide⟩, ⟨_, _, _, rfl, rfl⟩, by decide⟩

/-- An invariant state that steps into a fault, and one that stores. -/
theorem test_witness_StepInvariant :
    (running 0x8000#16 0x01#8).inv = true ∧ (∃ t, step (running 0x8000#16 0x01#8) = .next t) ∧
      (running 0x8000#16 0x20#8).inv = true ∧ ∃ t, step (running 0x8000#16 0x20#8) = .next t :=
  ⟨by decide, ⟨_, rfl⟩, by decide, _, rfl⟩

theorem test_witness_HostInvariant :
    State.reset.inv = true ∧ State.reset.asResetLeft = true ∧ (∃ r, harness (.execute 3) State.reset = .next r) ∧
      ∃ r, harness (.writeByte 0xFFFF 0x01#8) State.reset = .next r :=
  ⟨by decide, by decide, ⟨_, rfl⟩, _, rfl⟩

theorem test_witness_PushNeverFails :
    (running 0x8000#16 0x20#8).asResetLeft = true ∧ ∃ t, step (running 0x8000#16 0x20#8) = .next t :=
  ⟨by decide, _, rfl⟩

theorem test_witness_SteerNothing :
    (running 0x8000#16 0xB5#8).busy = true ∧
      { running 0x8000#16 0xB5#8 with a := 0xFF#8, y := 0xFF#8 }.mem = (running 0x8000#16 0xB5#8).mem ∧
      ∃ t, step (running 0x8000#16 0xB5#8) = .next t :=
  ⟨by decide, rfl, _, rfl⟩

theorem test_witness_HostAccesses :
    HarnessOp.writeWord 0x0000#16 0xFFFF ≠ .reset ∧
      (∀ cycleBudget, HarnessOp.writeWord 0x0000#16 0xFFFF ≠ .execute cycleBudget) ∧
      ∃ s' error, harness (.writeWord 0x0000#16 0xFFFF) State.reset = .next (s', .outOfRangeAccess error) :=
  ⟨by decide, fun _ => by simp, _, _, rfl⟩

theorem test_witness_HostReadsAndWrites :
    State.reset.busy = false ∧ (0xFFFF : Nat) < 65536 ∧ (0xFFFE : Nat) + 1 < 65536 ∧
      65536 ≤ (0x10000 : Nat) ∧ 65536 ≤ (0xFFFF : Nat) + 1 := by decide

/-- After a fault, and with no call made. -/
theorem test_witness_HostReadsRegisters :
    State.reset.busy = false ∧ State.reset.defined = true ∧ latched.busy = false ∧ latched.defined = true := by
  decide

theorem test_witness_BeforeReset : unborn.defined = false := by decide

end Sys2Proof.Tests
end

/-! SUPPORT. The step as a function: one equation for all instructions and one for an iteration, and what a step and
a host operation can answer. -/

namespace Sys2Proof.Machine

/-! ## Where an instruction completes -/

section
variable (s : State)

@[simp] theorem completes_nop (b8 : Byte) : completes (.nop b8) s = true := rfl
@[simp] theorem completes_ldaImm (imm : Byte) : completes (.ldaImm imm) s = true := rfl
@[simp] theorem completes_ldaZp (zp : Byte) : completes (.ldaZp zp) s = true := rfl
@[simp] theorem completes_ldaZpX (zp : Byte) : completes (.ldaZpX zp) s = true := rfl

@[simp] theorem completes_ldaAbs (addr : Word) :
    completes (.ldaAbs addr) s = (s.pc != 0xFFFE#16) := by
  simp [completes, Instr.wellFormedAt, Instr.wellPlaced, Instr.length, Instr.pointeeExists, pushFits]

@[simp] theorem completes_jmpAbs (target : Word) :
    completes (.jmpAbs target) s = (s.pc != 0xFFFE#16) := by
  simp [completes, Instr.wellFormedAt, Instr.wellPlaced, Instr.length, Instr.pointeeExists, pushFits]

@[simp] theorem completes_jmpInd (ptr : Word) :
    completes (.jmpInd ptr) s = (s.pc != 0xFFFE#16 && ptr != 0xFFFF#16) := by
  simp [completes, Instr.wellFormedAt, Instr.wellPlaced, Instr.length, Instr.pointeeExists, pushFits]

@[simp] theorem completes_jsr (target : Word) :
    completes (.jsr target) s = (s.pc != 0xFFFE#16 && s.sp != 0xFFFF#16) := by
  simp [completes, Instr.wellFormedAt, Instr.wellPlaced, Instr.length, Instr.pointeeExists, pushFits]

end

/-! ## One equation for every instruction -/

/-- The state an instruction leaves where it completes. -/
def effect (i : Instr) (s : State) : State :=
  match i with
  | .nop _ => passed s 2
  | .ldaImm imm => loadA imm (passed s 2)
  | .ldaZp zp => loadA (s.mem.read (zp.setWidth 16).toNat) ((passed s 2).charge 1)
  | .ldaZpX zp => loadA (s.mem.read ((add8 zp s.x).setWidth 16).toNat) ((passed s 2).charge 1)
  | .ldaAbs addr => loadA (s.mem.read addr.toNat) ((passed s 3).charge 1)
  | .jmpAbs target => (passed s 3).setPc target
  | .jmpInd ptr =>
    ((passed s 3).charge 2).setPc (word (s.mem.read (ptr.toNat + 1)) (s.mem.read ptr.toNat))
  | .jsr target =>
    (((passed s 3).charge 2).setMem (pushed s.mem s.sp (s.pc + 3#16))).setPc target

/-- Whether the access that fails, where the instruction does not complete, is a write: the push of a JSR whose target
could be fetched (R207). -/
def failsOnWrite (i : Instr) (s : State) : Bool :=
  match i with
  | .jsr _ => decide (s.pc ≠ 0xFFFE#16)
  | _ => false

/-- The state an instruction leaves, with its fault taken where it does not complete. -/
def result (i : Instr) (s : State) : State :=
  if completes i s then effect i s else takeFault s (lastWord (failsOnWrite i s))

theorem result_of_completes {i : Instr} {s : State} (h : completes i s = true) :
    result i s = effect i s := by simp [result, h]

theorem result_of_not_completes {i : Instr} {s : State} (h : completes i s = false) :
    result i s = takeFault s (lastWord (failsOnWrite i s)) := by simp [result, h]

theorem exec_eq (i : Instr) (s : State) : exec i s = .next (result i s) := by
  cases i with
  | nop b8 => exact execNop_eq b8 s
  | ldaImm imm => exact execLdaImm_eq imm s
  | ldaZp zp => exact execLdaZp_eq zp s
  | ldaZpX zp => exact execLdaZpX_eq zp s
  | ldaAbs addr =>
    by_cases hpc : s.pc = 0xFFFE#16
    · simp [exec, result, failsOnWrite, hpc, execLdaAbs_misplaced addr hpc]
    · simp [exec, result, effect, hpc, execLdaAbs_eq addr hpc]
  | jmpAbs target =>
    by_cases hpc : s.pc = 0xFFFE#16
    · simp [exec, result, failsOnWrite, hpc, execJmpAbs_misplaced target hpc]
    · simp [exec, result, effect, hpc, execJmpAbs_eq target hpc]
  | jmpInd ptr =>
    by_cases hpc : s.pc = 0xFFFE#16
    · simp [exec, result, failsOnWrite, hpc, execJmpInd_misplaced ptr hpc]
    · by_cases hp : ptr = 0xFFFF#16
      · simp [exec, result, failsOnWrite, hp, execJmpInd_noPointee hpc]
      · simp [exec, result, effect, hpc, hp, execJmpInd_eq hpc hp]
  | jsr target =>
    by_cases hpc : s.pc = 0xFFFE#16
    · simp [exec, result, failsOnWrite, hpc, execJsr_misplaced target hpc]
    · by_cases hsp : s.sp = 0xFFFF#16
      · simp [exec, result, failsOnWrite, hpc, hsp, execJsr_pushFails target hpc hsp]
      · simp [exec, result, effect, hpc, hsp, execJsr_eq target hpc hsp]

/-- Every next state of `exec` is the effect of the instruction or its fault, and `completes` says which. -/
theorem exec_next_cases {i : Instr} {s t : State} (h : exec i s = .next t) :
    (completes i s = true ∧ t = effect i s) ∨
      (completes i s = false ∧ t = takeFault s (lastWord (failsOnWrite i s))) := by
  rw [exec_eq, Host.Outcome.next.injEq] at h
  subst h
  cases hc : completes i s with
  | true => exact .inl ⟨rfl, result_of_completes hc⟩
  | false => exact .inr ⟨rfl, result_of_not_completes hc⟩

/-! ## One equation for an iteration -/

/-- The state an iteration leaves. -/
def nextState (s : State) : State :=
  match fetchInstr s with
  | .ok i => result i s
  | .error cause => takeFault s cause

theorem iterate_eq (s : State) : iterate s = .next (nextState s) := by
  unfold iterate nextState
  cases fetchInstr s with
  | ok i => exact exec_eq i s
  | error cause => rfl

theorem step_eq_nextState {s : State} (h : s.busy = true) : step s = .next (nextState s) :=
  (step_of_busy h).trans (iterate_eq s)

/-- A step leaves the state alone, has the effect of an instruction that completes, or takes a fault. -/
theorem step_next_cases {s t : State} (h : step s = .next t) :
    t = s ∨ (∃ i, completes i s = true ∧ t = effect i s) ∨ ∃ cause, t = takeFault s cause := by
  obtain ⟨-, -, ⟨-, rfl⟩ | ⟨-, i, -, hexec⟩ | ⟨-, cause, -, rfl⟩⟩ := step_cases h
  · exact .inl rfl
  · obtain ⟨hc, rfl⟩ | ⟨-, rfl⟩ := exec_next_cases hexec
    · exact .inr (.inl ⟨i, hc, rfl⟩)
    · exact .inr (.inr ⟨_, rfl⟩)
  · exact .inr (.inr ⟨cause, rfl⟩)

theorem step_undefined {s : State} (h : s.defined = false) :
    step s = .refused .undefinedBeforeReset := by
  simp [step, stepBody, h]

/-! ## What a host operation can do -/

/-- What every step keeps holds of the state in which a call of `Execute` ends. -/
theorem loop_induction {P : State → Prop} (hstep : ∀ s t, P s → step s = .next t → P t)
    (fuel : Nat) (s : State) (h : P s) : P (loop fuel s) := by
  induction fuel generalizing s with
  | zero => exact h
  | succ fuel ih =>
    simp only [loop]
    split
    · cases hs : step s with
      | next t => exact ih t (hstep s t h hs)
      | fault r => exact h
      | refused r => exact h
    · exact h

theorem busy_of_undefined {s : State} (h : s.defined = false) : s.busy = false := by
  simp [State.busy, h]

/-- `Execute` answers a next state only where R100 admits the call, and then runs the loop from the loaded budget. -/
theorem execute_cases {cycleBudget : Int} {s s' : State} {answer : HarnessAnswer}
    (h : execute cycleBudget s = .next (s', answer)) :
    s.defined = true ∧ s.fault = none ∧
      s' = loop cycleBudget.toNat { s with cyc := cycleBudget } ∧ answer = callResult s' := by
  cases hd : s.defined with
  | false => simp [execute, enterExecute, hd] at h
  | true =>
    cases hf : s.fault with
    | some record => simp [execute, enterExecute, hd, hf] at h
    | none =>
      simp only [execute, enterExecute, hd, hf, if_true, Host.Outcome.next.injEq, Prod.mk.injEq] at h
      obtain ⟨rfl, rfl⟩ := h
      exact ⟨rfl, rfl, rfl, rfl⟩

theorem execute_undefined {s : State} (h : s.defined = false) (cycleBudget : Int) :
    execute cycleBudget s = .refused .undefinedBeforeReset := by
  simp [execute, enterExecute, h]

/-- Memory after a host operation that clears it (R52) or stores a byte or a word to it (R57, R58). -/
inductive HostStores (m : Memory) : Memory → Prop where
  | clear : HostStores m Memory.initialized
  | byte {addr : Nat} {v : Byte} {m' : Memory} (h : m.writeByte addr v = .ok m') : HostStores m m'
  | word {addr : Nat} {v : Word} {m' : Memory} (h : m.writeWord v addr = .ok m') : HostStores m m'

theorem state_of_answerRead {α : Type} {s s' : State} {wrap : α → HarnessAnswer}
    {r : Except AccessError α} {answer : HarnessAnswer} (h : answerRead s wrap r = (s', answer)) :
    s' = s := by
  cases r <;> cases h <;> rfl

theorem state_of_answerWrite {s s' : State} {r : Except AccessError Memory} {answer : HarnessAnswer}
    (h : answerWrite s r = (s', answer)) : s' = s ∨ ∃ m, r = .ok m ∧ s' = s.setMem m := by
  cases r with
  | ok m => cases h; exact .inr ⟨m, rfl, rfl⟩
  | error e => cases h; exact .inl rfl

/-- The state after a host operation (R238): the same, the same with memory stored to, `State.reset`, or where a call
of `Execute` ends. -/
theorem harness_cases {op : HarnessOp} {s s' : State} {answer : HarnessAnswer}
    (h : harness op s = .next (s', answer)) :
    s' = s ∨ (∃ m, HostStores s.mem m ∧ s' = s.setMem m) ∨ (op = .reset ∧ s' = State.reset) ∨
      ∃ cycleBudget, op = .execute cycleBudget ∧
        s' = loop cycleBudget.toNat { s with cyc := cycleBudget } := by
  cases hb : s.busy with
  | true => simp [harness, hb] at h
  | false =>
    simp only [harness, hb, Bool.false_eq_true, if_false] at h
    cases op with
    | clearMemory => cases h; exact .inr (.inl ⟨_, .clear, rfl⟩)
    | readByte addr => exact .inl (state_of_answerRead (Host.Outcome.next.inj h))
    | readWord addr => exact .inl (state_of_answerRead (Host.Outcome.next.inj h))
    | writeByte addr v =>
      obtain rfl | ⟨m, hm, rfl⟩ := state_of_answerWrite (Host.Outcome.next.inj h)
      · exact .inl rfl
      · exact .inr (.inl ⟨m, .byte hm, rfl⟩)
    | writeWord v addr =>
      obtain rfl | ⟨m, hm, rfl⟩ := state_of_answerWrite (Host.Outcome.next.inj h)
      · exact .inl rfl
      · exact .inr (.inl ⟨m, .word hm, rfl⟩)
    | reset => cases h; exact .inr (.inr (.inl ⟨rfl, rfl⟩))
    | execute cycleBudget =>
      obtain ⟨-, -, hloop, -⟩ := execute_cases h
      exact .inr (.inr (.inr ⟨cycleBudget, rfl, hloop⟩))
    | observe what =>
      cases hd : s.defined with
      | true => simp only [hd, if_true] at h; cases h; exact .inl rfl
      | false => simp [hd] at h

end Sys2Proof.Machine

/-! SUPPORT. Proofs: the state. The table of `Reset`, frames, the invariants on registers and flags, and the state at
creation. -/

namespace Sys2Proof.Machine

/-! ## Frames of the instructions -/

/-- Settles O11: by `completes`, the effect is a load of `A`, or the fault leaves all but the record. -/
theorem loadsChangeOnlyAccumulatorAndTwoFlags :
    Obligations.LoadsChangeOnlyAccumulatorAndTwoFlags := by
  intro i s t hi h
  obtain ⟨hc, rfl⟩ | ⟨hc, rfl⟩ := exec_next_cases h
  · rcases hi with ⟨imm, rfl⟩ | ⟨zp, rfl⟩ | ⟨zp, rfl⟩ | ⟨addr, rfl⟩ <;> simp [effect, hc]
  · simp [hc]

/-- Settles O12: by `completes`, the effect is on `PC` and `CYC` alone, or the fault leaves all but the record. -/
theorem nopAndJumpsChangeNoRegisterFlagOrCell :
    Obligations.NopAndJumpsChangeNoRegisterFlagOrCell := by
  intro i s t hi h
  obtain ⟨-, rfl⟩ | ⟨hc, rfl⟩ := exec_next_cases h
  · rcases hi with ⟨b8, rfl⟩ | ⟨target, rfl⟩ | ⟨ptr, rfl⟩ <;> simp [effect]
  · simp [hc]

/-- A push stores at `sp` and `sp + 1` alone (R58). -/
theorem read_pushed_other (m : Memory) (sp ret : Word) {addr : Nat} (h : addr ≠ sp.toNat)
    (h' : addr ≠ sp.toNat + 1) : (pushed m sp ret).read addr = m.read addr := by
  rw [pushed, Memory.read_write_other _ _ h', Memory.read_write_other _ _ h]

/-- Settles O13: by `completes`, memory is that after the push, or that before it. -/
theorem jsrStoresOnlyAtTheStackPointer : Obligations.JsrStoresOnlyAtTheStackPointer := by
  intro target s t h
  obtain ⟨hc, rfl⟩ | ⟨hc, rfl⟩ := exec_next_cases h
  · have hmem : ∀ addr : Nat, addr ≠ s.sp.toNat → addr ≠ s.sp.toNat + 1 →
        (effect (.jsr target) s).mem.read addr = s.mem.read addr :=
      fun _ => read_pushed_other s.mem s.sp _
    exact ⟨rfl, rfl, rfl, rfl, rfl, rfl, fun _ => rfl, hmem, by simp [hc]⟩
  · simp [hc]

/-! ## `Z` and `N` (R29) -/

theorem znOfA_loadA (v : Byte) (s : State) : (loadA v s).znOfA = true := by
  simp [State.znOfA]

theorem znOfA_congr {s t : State} (ha : t.a = s.a) (hf : t.flags = s.flags) : t.znOfA = s.znOfA := by
  simp only [State.znOfA, ha, hf]

/-- An instruction that completes loads `A` or leaves `A` and the flags alone. -/
theorem effect_loads_or_keeps (i : Instr) (s : State) :
    (∃ v s1, effect i s = loadA v s1) ∨ ((effect i s).a = s.a ∧ (effect i s).flags = s.flags) := by
  cases i with
  | ldaImm | ldaZp | ldaZpX | ldaAbs => exact .inl ⟨_, _, rfl⟩
  | nop | jmpAbs | jmpInd | jsr => exact .inr ⟨rfl, rfl⟩

theorem step_keeps_znOfA {s t : State} (hzn : s.znOfA = true) (h : step s = .next t) :
    t.znOfA = true := by
  obtain rfl | ⟨i, -, rfl⟩ | ⟨cause, rfl⟩ := step_next_cases h
  · exact hzn
  · obtain ⟨v, s1, hload⟩ | ⟨ha, hf⟩ := effect_loads_or_keeps i s
    · rw [hload, znOfA_loadA]
    · rw [znOfA_congr ha hf, hzn]
  · rw [znOfA_congr (takeFault_a s cause) (takeFault_flags s cause), hzn]

/-- Settles O26: a load sets the two flags from what it puts in `A`, and no other step touches any of the three. -/
theorem zeroAndNegativeDescribeTheAccumulator :
    Obligations.ZeroAndNegativeDescribeTheAccumulator := by
  refine ⟨fun i s t hi hc h => ?_, fun s t => step_keeps_znOfA⟩
  rw [exec_eq, result_of_completes hc, Host.Outcome.next.injEq] at h
  subst h
  rcases hi with ⟨imm, rfl⟩ | ⟨zp, rfl⟩ | ⟨zp, rfl⟩ | ⟨addr, rfl⟩ <;> exact znOfA_loadA _ _

/-! ## What only `Reset` writes -/

/-- What a step never changes: `X`, `Y`, `SP`, the flags but `Z` and `N`, and `DEFINED`. -/
theorem step_keeps {s t : State} (h : step s = .next t) :
    t.x = s.x ∧ t.y = s.y ∧ t.sp = s.sp ∧ t.flags.c = s.flags.c ∧ t.flags.i = s.flags.i ∧
      t.flags.d = s.flags.d ∧ t.flags.b = s.flags.b ∧ t.flags.v = s.flags.v ∧
      t.defined = s.defined := by
  obtain ⟨-, -, ⟨-, rfl⟩ | ⟨-, i, -, hexec⟩ | ⟨-, cause, -, rfl⟩⟩ := step_cases h
  · simp
  · exact exec_keeps hexec
  · simp

theorem step_keeps_asResetLeft {s t : State} (hs : s.asResetLeft = true) (h : step s = .next t) :
    t.asResetLeft = true := by
  obtain ⟨hx, hy, hsp, hc, hi, hd, hb, hv, hdef⟩ := step_keeps h
  rw [← hs]
  simp only [State.asResetLeft, hx, hy, hsp, hc, hi, hd, hb, hv, hdef]

theorem reset_asResetLeft : State.reset.asResetLeft = true := rfl

theorem harness_keeps_asResetLeft {op : HarnessOp} {s s' : State} {answer : HarnessAnswer}
    (hs : s.asResetLeft = true) (h : harness op s = .next (s', answer)) : s'.asResetLeft = true := by
  obtain rfl | ⟨m, -, rfl⟩ | ⟨-, rfl⟩ | ⟨cycleBudget, -, rfl⟩ := harness_cases h
  · exact hs
  · exact hs
  · exact reset_asResetLeft
  · exact loop_induction (P := fun s => s.asResetLeft = true) (fun _ _ => step_keeps_asResetLeft) _ _ hs

/-- Settles O43: no step writes them, and a host operation resets, stores to memory or runs steps. -/
theorem onlyResetWritesTheUnwrittenRegisters : Obligations.OnlyResetWritesTheUnwrittenRegisters :=
  ⟨fun _ _ => step_keeps, fun _ _ _ _ => harness_keeps_asResetLeft⟩

/-! ## What steers execution

A step of a state and a step of that state with `A`, `Y` and the flags cleared agree on everything else. -/

/-- The state with `A`, `Y` and the flags cleared. -/
def State.steering (s : State) : State :=
  { s with a := 0x00#8, y := 0x00#8, flags := Flags.clear }

theorem State.steering_eq_iff {s t : State} :
    t.steering = s.steering ↔
      t.x = s.x ∧ t.pc = s.pc ∧ t.sp = s.sp ∧ t.cyc = s.cyc ∧ t.fault = s.fault ∧
        t.defined = s.defined ∧ t.mem = s.mem := by
  simp [State.steering]

/-- A fetch depends on `PC` and memory alone. -/
theorem fetchInstr_congr {s t : State} (hpc : t.pc = s.pc) (hmem : t.mem = s.mem) :
    fetchInstr t = fetchInstr s := by
  have hop : t.mem.read t.pc.toNat = s.mem.read s.pc.toNat := by rw [hpc, hmem]
  cases hform : operandForm (s.mem.read s.pc.toNat) with
  | none => rw [fetchInstr_unknown hform, fetchInstr_unknown (hop ▸ hform), hop]
  | some form =>
    cases form with
    | oneByte mk =>
      rw [fetchInstr_oneByte hform, fetchInstr_oneByte (hop ▸ hform), hpc, hmem]
    | twoBytes mk =>
      by_cases hlast : s.pc = 0xFFFE#16
      · rw [fetchInstr_misplaced hform hlast, fetchInstr_misplaced (hop ▸ hform) (hpc.trans hlast)]
      · rw [fetchInstr_twoBytes hform hlast, fetchInstr_twoBytes (hop ▸ hform) (hpc ▸ hlast), hpc, hmem]

theorem effect_steering (i : Instr) (s : State) :
    (effect i s.steering).steering = (effect i s).steering := by
  cases i <;> rfl

theorem completes_steering (i : Instr) (s : State) : completes i s.steering = completes i s := by
  cases i <;> rfl

theorem failsOnWrite_steering (i : Instr) (s : State) :
    failsOnWrite i s.steering = failsOnWrite i s := by
  cases i <;> rfl

theorem result_steering (i : Instr) (s : State) :
    (result i s.steering).steering = (result i s).steering := by
  cases hc : completes i s with
  | true =>
    rw [result_of_completes hc, result_of_completes ((completes_steering i s).trans hc), effect_steering]
  | false =>
    rw [result_of_not_completes hc, result_of_not_completes ((completes_steering i s).trans hc),
      failsOnWrite_steering]
    rfl

theorem nextState_steering (s : State) : (nextState s.steering).steering = (nextState s).steering := by
  have hfetch : fetchInstr s.steering = fetchInstr s := fetchInstr_congr rfl rfl
  rw [nextState, nextState, hfetch]
  cases fetchInstr s with
  | ok i => exact result_steering i s
  | error cause => rfl

/-- States that differ in `A`, `Y` and the flags alone step to such states. -/
theorem nextState_steering_congr {s t : State} (h : t.steering = s.steering) :
    (nextState t).steering = (nextState s).steering := by
  rw [← nextState_steering t, h, nextState_steering]

/-- Settles O45: both states step, and what the steps leave agrees once `A`, `Y` and the flags are cleared. -/
theorem accumulatorYAndFlagsSteerNothing : Obligations.AccumulatorYAndFlagsSteerNothing := by
  intro s s' t hbusy hx hpc hsp hcyc hfault hdef hmem h
  have hsteer : s'.steering = s.steering :=
    State.steering_eq_iff.mpr ⟨hx, hpc, hsp, hcyc, hfault, hdef, hmem⟩
  have hbusy' : s'.busy = true := by rw [← hbusy, State.busy, State.busy, hdef, hfault, hcyc]
  rw [step_eq_nextState hbusy, Host.Outcome.next.injEq] at h
  subst h
  exact ⟨nextState s', step_eq_nextState hbusy',
    State.steering_eq_iff.mp (nextState_steering_congr hsteer)⟩

/-! ## Creation and reset -/

/-- A tabulated memory reads as its table: where the value is 0x00 no entry is made, and none above reads otherwise. -/
theorem Memory.read_tabulate (f : Nat → Byte) {low count addr : Nat}
    (hsize : low + count ≤ Config.memSize) (hlow : low ≤ addr) (hhigh : addr < low + count) :
    (Memory.tabulate f low count).read addr = f addr := by
  induction count generalizing low with
  | zero => omega
  | succ count ih =>
    obtain rfl | hlt := Nat.eq_or_lt_of_le hlow
    · have habove : (Memory.tabulate f (low + 1) count).read low = 0x00#8 :=
        Memory.read_below (Memory.tabulate_wfFrom f (low + 1) count (by omega)) (Nat.lt_succ_self low)
      by_cases hf : f low = 0x00#8 <;> simp [Memory.tabulate, Memory.read, hf, habove]
    · have habove := ih (low := low + 1) (by omega) hlt (by omega)
      by_cases hf : f low = 0x00#8 <;>
        simp [Memory.tabulate, Memory.read, hf, Nat.ne_of_lt hlt, habove]

/-- Settles O50: memory at creation is tabulated from the free values. -/
theorem createdMemoryIsUnconstrained : Obligations.CreatedMemoryIsUnconstrained :=
  have hsize : 0 + Config.memSize ≤ Config.memSize := Nat.le_of_eq (Nat.zero_add _)
  ⟨rfl, Memory.tabulate_wfFrom Config.powerOnCell 0 Config.memSize hsize, fun addr h =>
    Memory.read_tabulate Config.powerOnCell hsize (Nat.zero_le addr) ((Nat.zero_add _).symm ▸ h)⟩

/-- Settles O1: the fields of `State.reset` are the values of the table of R37, and an empty memory reads as 0x00. -/
theorem resetLeavesTheTabledValues : Obligations.ResetLeavesTheTabledValues :=
  ⟨rfl, rfl, rfl, rfl, rfl, rfl, rfl, rfl, rfl, rfl, rfl, rfl, rfl, rfl, rfl, Memory.read_nil⟩

/-- Settles O40: the empty memory is canonical, no record is latched, and the rest are the values of R37. -/
theorem resetMeetsTheInvariant : Obligations.ResetMeetsTheInvariant := ⟨rfl, reset_asResetLeft⟩

/-- Settles O48: a state never reset is not busy, so the host's operation is looked at and refused by `Execute`. -/
theorem nothingRunsBeforeReset : Obligations.NothingRunsBeforeReset := fun s h =>
  ⟨step_undefined h, fun cycleBudget => by
    simp [harness, busy_of_undefined h, execute_undefined h]⟩

/-! ## Fetches -/

/-- Addition to an address is addition modulo 2^16 (R26). -/
theorem add_ofNat_eq_ofNat_mod (pc : Word) (n : Nat) :
    pc + BitVec.ofNat 16 n = BitVec.ofNat 16 ((pc.toNat + n) % 65536) := by
  apply BitVec.eq_of_toNat_eq
  simp

/-- Settles O22: the equations of the two fetches, with the sum written out modulo 2^16. -/
theorem fetchesAdvanceTheProgramCounter : Obligations.FetchesAdvanceTheProgramCounter := by
  refine ⟨fun s => ?_, fun s h => ?_, fun s h => fetch16_last h⟩
  · rw [fetch8_eq, ← add_ofNat_eq_ofNat_mod]
    rfl
  · rw [fetch16_eq h, ← add_ofNat_eq_ofNat_mod]
    rfl

/-! ## The packed status byte -/

/-- The packed byte bit by bit, from the top. -/
theorem Flags.packP_eq_concat (f : Flags) :
    f.packP =
      (((((((BitVec.ofBool f.n).concat f.v).concat true).concat f.b).concat f.d).concat f.i).concat
        f.z).concat f.c :=
  rfl

theorem Flags.toNat_packP (f : Flags) :
    f.packP.toNat =
      f.n.toNat * 128 + f.v.toNat * 64 + 32 + f.b.toNat * 16 + f.d.toNat * 8 + f.i.toNat * 4 +
        f.z.toNat * 2 + f.c.toNat := by
  simp only [Flags.packP_eq_concat, BitVec.toNat_concat, BitVec.toNat_ofBool, Bool.toNat_true]
  omega

theorem Flags.unpackP_packP (f : Flags) : Flags.unpackP f.packP = f := by
  simp [Flags.unpackP, Flags.packP_eq_concat]

theorem Flags.packP_unpackP (p : Byte) : (Flags.unpackP p).packP = p ||| 0x20#8 := by
  apply BitVec.eq_of_getLsbD_eq
  intro i hi
  interval_cases i <;> simp [Flags.unpackP, Flags.packP_eq_concat]

/-- Settles O25: the packed byte is a chain of appended bits, so its value and each of its bits can be read off. -/
theorem packedStatusByteHoldsTheFlags : Obligations.PackedStatusByteHoldsTheFlags :=
  ⟨Flags.toNat_packP, Flags.unpackP_packP, Flags.packP_unpackP⟩

end Sys2Proof.Machine

/-! SUPPORT. Proofs: memory. What the memory primitives answer inside and beyond the capacity, the invariant of a step,
and what a fetch sees of a word just pushed. -/

namespace Sys2Proof

theorem lowByte_eq_ofNat (w : Word) : lowByte w = BitVec.ofNat 8 (w.toNat % 256) := by
  apply BitVec.eq_of_toNat_eq
  simp [toNat_lowByte]

theorem highByte_eq_ofNat (w : Word) : highByte w = BitVec.ofNat 8 (w.toNat / 256) := by
  apply BitVec.eq_of_toNat_eq
  rw [toNat_highByte, BitVec.toNat_ofNat]
  omega

end Sys2Proof

namespace Sys2Proof.Machine

namespace Memory

/-! ## The memory primitives (R55 to R58) -/

section
variable {addr : Nat} (m : Memory)

theorem readByte_eq (h : addr < Config.memSize) : m.readByte addr = .ok (m.read addr) := by
  simp [readByte, Nat.not_le.mpr h]

theorem readByte_beyond (h : Config.memSize ≤ addr) :
    m.readByte addr = .error ⟨addr, .byte, false⟩ := by
  simp [readByte, h]

theorem writeByte_eq (h : addr < Config.memSize) (v : Byte) :
    m.writeByte addr v = .ok (m.write addr v) := by
  simp [writeByte, Nat.not_le.mpr h]

theorem writeByte_beyond (h : Config.memSize ≤ addr) (v : Byte) :
    m.writeByte addr v = .error ⟨addr, .byte, true⟩ := by
  simp [writeByte, h]

theorem readWord_eq (h : addr + 1 < Config.memSize) :
    m.readWord addr = .ok (word (m.read (addr + 1)) (m.read addr)) :=
  if_neg (by omega)

theorem readWord_beyond (h : Config.memSize ≤ addr + 1) :
    m.readWord addr = .error ⟨addr, .word, false⟩ :=
  if_pos (.inr h)

theorem writeWord_eq (h : addr + 1 < Config.memSize) (v : Word) :
    m.writeWord v addr = .ok ((m.write addr (lowByte v)).write (addr + 1) (highByte v)) :=
  if_neg (by omega)

theorem writeWord_beyond (h : Config.memSize ≤ addr + 1) (v : Word) :
    m.writeWord v addr = .error ⟨addr, .word, true⟩ :=
  if_pos (.inr h)

end

/-! ## Reading after two bytes are written, low first (R61) -/

section
variable {m : Memory} (h : m.wf = true) (addr : Nat) (lo hi : Byte)
include h

theorem read_low_of_write_pair : ((m.write addr lo).write (addr + 1) hi).read addr = lo := by
  rw [read_write_other _ _ (Nat.ne_of_lt (Nat.lt_succ_self addr)), read_write_same h]

theorem read_high_of_write_pair (haddr : addr < Config.memSize) :
    ((m.write addr lo).write (addr + 1) hi).read (addr + 1) = hi :=
  read_write_same (write_wf h haddr lo) hi

theorem readWord_of_write_pair (haddr : addr + 1 < Config.memSize) :
    ((m.write addr lo).write (addr + 1) hi).readWord addr = .ok (word hi lo) := by
  rw [readWord_eq _ haddr, read_low_of_write_pair h, read_high_of_write_pair h _ _ _ (by omega)]

end

/-! ## Beyond the capacity -/

theorem read_beyond {low a : Nat} {m : Memory} (h : wfFrom low m = true) (ha : Config.memSize ≤ a) :
    m.read a = 0x00#8 := by
  induction m generalizing low with
  | nil => rfl
  | cons cell rest ih =>
    obtain ⟨k, v⟩ := cell
    obtain ⟨-, hk, -, hrest⟩ := wfFrom_cons.mp h
    rw [read, if_neg (by omega), ih hrest]

end Memory

/-! ## What the memory holds -/

/-- Settles O27: a store is read back at its own address, and the primitives check the address alone. -/
theorem byteWriteIsReadBack : Obligations.ByteWriteIsReadBack := by
  refine ⟨fun m addr v hwf haddr => ⟨m.write addr v, m.writeByte_eq haddr v, ?_, ?_, ?_⟩,
    fun m addr v haddr => ⟨m.readByte_beyond haddr, m.writeByte_beyond haddr v⟩⟩
  · exact Memory.write_wf hwf haddr v
  · rw [Memory.readByte_eq _ haddr, Memory.read_write_same hwf]
  · intro other hother
    rw [Memory.readByte, Memory.readByte, Memory.read_write_other m v hother]

/-- Settles O28: a word access is two byte accesses, low byte first. -/
theorem wordIsItsTwoBytesLowFirst : Obligations.WordIsItsTwoBytesLowFirst := by
  constructor
  · intro m v addr hwf haddr
    have hlow : addr < Config.memSize := Nat.lt_of_succ_lt haddr
    refine ⟨_, m.writeWord_eq haddr v, ?_, ?_, ?_⟩
    · rw [Memory.readByte_eq _ hlow, Memory.read_low_of_write_pair hwf, lowByte_eq_ofNat]
    · rw [Memory.readByte_eq _ haddr, Memory.read_high_of_write_pair hwf _ _ _ hlow, highByte_eq_ofNat]
    · rw [Memory.readWord_of_write_pair hwf _ _ _ haddr, word_highByte_lowByte]
  · intro m lo hi addr hwf haddr
    exact ⟨_, _, m.writeByte_eq (Nat.lt_of_succ_lt haddr) lo, Memory.writeByte_eq _ haddr hi,
      Memory.readWord_of_write_pair hwf addr lo hi haddr⟩

/-- Settles O29: the second byte of the access is inside the capacity up to the base 0xFFFE and outside above it. -/
theorem wordAccessFailsOnlyAtTheTop : Obligations.WordAccessFailsOnlyAtTheTop := by
  intro m v addr
  constructor
  · intro h
    have haddr : addr + 1 < Config.memSize := Nat.lt_succ_of_le (Nat.succ_le_succ h)
    exact ⟨m.readWord_eq haddr, _, m.writeWord_eq haddr v⟩
  · intro h
    have haddr : Config.memSize ≤ addr + 1 := Nat.succ_le_succ h
    exact ⟨m.readWord_beyond haddr, m.writeWord_beyond haddr v⟩

/-- Settles O30: canonical memories read alike beyond the capacity too, where both read as 0x00. -/
theorem canonicalMemoriesThatReadAlikeAreEqual : Obligations.CanonicalMemoriesThatReadAlikeAreEqual := by
  intro m m' hwf hwf' hread
  refine Memory.eq_of_read_eq_from hwf hwf' fun addr => ?_
  by_cases haddr : addr < 65536
  · exact hread addr haddr
  · have hbeyond : Config.memSize ≤ addr := Nat.le_of_not_lt haddr
    rw [Memory.read_beyond hwf hbeyond, Memory.read_beyond hwf' hbeyond]

/-! ## The invariant of a step -/

theorem pushed_wf {m : Memory} {sp : Word} (h : m.wf = true) (hsp : sp ≠ 0xFFFF#16) (ret : Word) :
    (pushed m sp ret).wf = true :=
  Memory.writeWord_wf h (if_neg ((word_access_fits_iff sp).mpr hsp))

/-- An instruction that completes leaves memory canonical: only JSR stores, and its word fits at `SP`. -/
theorem effect_mem_wf {i : Instr} {s : State} (h : s.mem.wf = true) (hc : completes i s = true) :
    (effect i s).mem.wf = true := by
  cases i with
  | jsr target =>
    obtain ⟨-, hsp⟩ : s.pc ≠ 0xFFFE#16 ∧ s.sp ≠ 0xFFFF#16 := by simpa using hc
    exact pushed_wf h hsp _
  | nop | ldaImm | ldaZp | ldaZpX | ldaAbs | jmpAbs | jmpInd => exact h

theorem effect_fault (i : Instr) (s : State) : (effect i s).fault = s.fault := by
  cases i <;> rfl

/-- A fetch raises an illegal opcode, or the word access of an operand at 0xFFFF (R201, R202). -/
theorem fetchInstr_error_cases {s : State} {cause : Cause} (h : fetchInstr s = .error cause) :
    (∃ op, operandForm op = none ∧ cause = .unknownOpcode op) ∨ cause = lastWord false := by
  cases hform : operandForm (s.mem.read s.pc.toNat) with
  | none =>
    rw [fetchInstr_unknown hform, Except.error.injEq] at h
    exact .inl ⟨_, hform, h.symm⟩
  | some form =>
    cases form with
    | oneByte mk => simp [fetchInstr_oneByte hform] at h
    | twoBytes mk =>
      by_cases hpc : s.pc = 0xFFFE#16
      · rw [fetchInstr_misplaced hform hpc, Except.error.injEq] at h
        exact .inr h.symm
      · simp [fetchInstr_twoBytes hform hpc] at h

theorem unknownOpcode_legalAt {op : Byte} (h : operandForm op = none) (pc : Word) :
    ((Cause.unknownOpcode op).record pc).legalAt pc = true := by
  simp [Cause.record, FaultRecord.legalAt, h]

theorem lastWord_legalAt (write : Bool) (pc : Word) :
    ((lastWord write).record pc).legalAt pc = true := by
  simp [lastWord, Cause.record, FaultRecord.legalAt]

theorem inv_of_no_fault {s : State} (hmem : s.mem.wf = true) (hfault : s.fault = none) :
    s.inv = true := by
  simp [State.inv, hmem, hfault]

theorem takeFault_inv {s : State} {cause : Cause} (hmem : s.mem.wf = true)
    (hlegal : (cause.record s.pc).legalAt s.pc = true) : (takeFault s cause).inv = true := by
  simp [State.inv, hmem, hlegal]

theorem mem_wf_of_inv {s : State} (h : s.inv = true) : s.mem.wf = true :=
  (Bool.and_eq_true_iff.mp h).1

theorem step_keeps_inv {s t : State} (hs : s.inv = true) (h : step s = .next t) : t.inv = true := by
  have hmem := mem_wf_of_inv hs
  obtain ⟨-, hfault, ⟨-, rfl⟩ | ⟨-, i, -, hexec⟩ | ⟨-, cause, hfetch, rfl⟩⟩ := step_cases h
  · exact hs
  · obtain ⟨hc, rfl⟩ | ⟨-, rfl⟩ := exec_next_cases hexec
    · exact inv_of_no_fault (effect_mem_wf hmem hc) ((effect_fault i s).trans hfault)
    · exact takeFault_inv hmem (lastWord_legalAt _ _)
  · obtain ⟨op, hop, rfl⟩ | rfl := fetchInstr_error_cases hfetch
    · exact takeFault_inv hmem (unknownOpcode_legalAt hop _)
    · exact takeFault_inv hmem (lastWord_legalAt _ _)

/-- Settles O41: an instruction that completes stores canonically and latches nothing; a fault stores nothing and
latches what its fetch or its word access at 0xFFFF raised. -/
theorem everyStepKeepsTheInvariant : Obligations.EveryStepKeepsTheInvariant :=
  fun _ _ => step_keeps_inv

/-! ## A step runs the bytes at `PC` -/

theorem length_of_twoBytes {op : Byte} {mk : Word → Instr}
    (h : operandForm op = some (.twoBytes mk)) (w : Word) : (mk w).length = 3 := by
  obtain ⟨before, after, htable, -⟩ := List.lookup_eq_some_iff.mp h
  have hmem : (op, OperandForm.twoBytes mk) ∈ opcodeTable := by simp [htable]
  simp only [opcodeTable, List.mem_cons, Prod.mk.injEq, OperandForm.twoBytes.injEq, reduceCtorEq,
    and_false, false_or, List.not_mem_nil, or_false] at hmem
  obtain ⟨-, rfl⟩ | ⟨-, rfl⟩ | ⟨-, rfl⟩ | ⟨-, rfl⟩ := hmem <;> rfl

/-- A three-byte instruction with its opcode at 0xFFFE faults on its operand, as its fetch does (R234). -/
theorem exec_misplaced {i : Instr} {s : State} (hlen : i.length = 3) (hpc : s.pc = 0xFFFE#16) :
    exec i s = .next (takeFault s (lastWord false)) := by
  have hc : completes i s = false := by
    simp [completes, Instr.wellFormedAt, Instr.wellPlaced, hlen, hpc]
  have hwrite : failsOnWrite i s = false := by
    cases i <;> simp [failsOnWrite, hpc]
  rw [exec_eq, result_of_not_completes hc, hwrite]

/-- The bytes of an operand word lie at the two addresses after the opcode. -/
theorem toNat_add_two {pc : Word} (h : pc ≠ 0xFFFE#16) :
    (pc + 2#16).toNat = (pc + 1#16).toNat + 1 := by
  bv_omega

theorem step_of_decode {s : State} {i : Instr} {rest : List Byte} (hbusy : s.busy = true)
    (h : decode [s.mem.read s.pc.toNat, s.mem.read (s.pc + 1#16).toNat,
      s.mem.read (s.pc + 2#16).toNat] = .ok (i, rest)) : step s = exec i s := by
  rw [step_of_busy hbusy]
  cases hform : operandForm (s.mem.read s.pc.toNat) with
  | none => simp [decode, hform] at h
  | some form =>
    cases form with
    | oneByte mk =>
      simp only [decode, hform, Except.ok.injEq, Prod.mk.injEq] at h
      rw [iterate, fetchInstr_oneByte hform, ← h.1]
    | twoBytes mk =>
      simp only [decode, hform, Except.ok.injEq, Prod.mk.injEq] at h
      obtain ⟨rfl, -⟩ := h
      by_cases hpc : s.pc = 0xFFFE#16
      · rw [iterate, fetchInstr_misplaced hform hpc, exec_misplaced (length_of_twoBytes hform _) hpc]
      · rw [iterate, fetchInstr_twoBytes hform hpc, toNat_add_two hpc]

theorem step_of_unknownOpcode {s : State} (hbusy : s.busy = true)
    (h : operandForm (s.mem.read s.pc.toNat) = none) :
    step s = .next (takeFault s (.unknownOpcode (s.mem.read s.pc.toNat))) := by
  rw [step_of_busy hbusy, iterate, fetchInstr_unknown h]

/-! ## A fetch of what JSR pushed (R66) -/

theorem read_pushed_low {m : Memory} (h : m.wf = true) (sp ret : Word) :
    (pushed m sp ret).read sp.toNat = lowByte ret :=
  Memory.read_low_of_write_pair h _ _ _

theorem read_pushed_high {m : Memory} {sp : Word} (h : m.wf = true) (hsp : sp ≠ 0xFFFF#16) (ret : Word) :
    (pushed m sp ret).read (sp + 1#16).toNat = highByte ret := by
  rw [toNat_succ hsp]
  exact Memory.read_high_of_write_pair h _ _ _ (toNat_lt_memSize sp)

theorem read_pushed_above (m : Memory) (sp ret : Word) :
    (pushed m sp ret).read (sp + 2#16).toNat = m.read (sp + 2#16).toNat :=
  read_pushed_other m sp ret (by bv_omega) (by bv_omega)

/-- Settles O31: the cells at `PC` after the jump are the pushed bytes and the cell above them. -/
theorem pushedBytesAreFetchedAsPushed : Obligations.PushedBytesAreFetchedAsPushed := by
  intro s t hwf hpc hsp h
  obtain ⟨htarget, hmem⟩ : t.pc = s.sp ∧ t.mem = pushed s.mem s.sp (s.pc + 3#16) := by
    rw [exec, execJsr_eq s.sp hpc hsp] at h
    cases h
    exact ⟨rfl, rfl⟩
  have hlow : t.mem.read t.pc.toNat = lowByte (s.pc + 3#16) := by
    rw [hmem, htarget, read_pushed_low hwf]
  have hhigh : t.mem.read (t.pc + 1#16).toNat = highByte (s.pc + 3#16) := by
    rw [hmem, htarget, read_pushed_high hwf hsp]
  have habove : t.mem.read (t.pc + 2#16).toNat = s.mem.read (s.sp + 2#16).toNat := by
    rw [hmem, htarget, read_pushed_above]
  have hfits : t.pc ≠ 0xFFFF#16 := htarget ▸ hsp
  refine ⟨htarget, ?_, ?_, fun hbusy => ⟨fun i rest hdec => ?_, fun hform => ?_⟩⟩
  · rw [fetch8_eq, hlow, htarget]
    rfl
  · rw [fetch16_eq hfits, ← toNat_succ hfits, hlow, hhigh, word_highByte_lowByte, htarget]
    rfl
  · rw [← hlow, ← hhigh, ← habove] at hdec
    exact step_of_decode hbusy hdec
  · rw [step_of_unknownOpcode hbusy (hlow ▸ hform), hlow, ← htarget]
    rfl

end Sys2Proof.Machine

/-! SUPPORT. Proofs: the encoding. The opcode table and the encoder agree row by row, so decoding is the inverse of
encoding; and what is placed at `PC` is read back there, so a step runs it. -/

namespace Sys2Proof

/-! ## The opcode table and the encoder -/

/-- What an operand form makes is written as the opcode `op` and the operand's bytes, low byte first. -/
def OperandForm.EncodesAs (op : Byte) : OperandForm → Prop
  | .oneByte mk => ∀ b, encode (mk b) = [op, b]
  | .twoBytes mk => ∀ w, encode (mk w) = [op, lowByte w, highByte w]

theorem opcodeTable_encodesAs : ∀ row ∈ opcodeTable, row.2.EncodesAs row.1 := by
  simp [opcodeTable, OperandForm.EncodesAs, encode, Instr.opcode, Instr.operandBytes]

theorem encodesAs_of_operandForm {op : Byte} {form : OperandForm} (h : operandForm op = some form) :
    form.EncodesAs op := by
  obtain ⟨before, after, htable, -⟩ := List.lookup_eq_some_iff.mp h
  exact opcodeTable_encodesAs (op, form) (by simp [htable])

/-! ## Decoding and encoding -/

theorem decode_encode (i : Instr) (rest : List Byte) : decode (encode i ++ rest) = .ok (i, rest) := by
  cases i with
  | nop b8 => exact Laws.Encoding.nop b8 rest
  | ldaImm imm => exact Laws.Encoding.ldaImm imm rest
  | ldaZp zp => exact Laws.Encoding.ldaZp zp rest
  | ldaZpX zp => exact Laws.Encoding.ldaZpX zp rest
  | ldaAbs addr => exact Laws.Encoding.ldaAbs addr rest
  | jmpAbs target => exact Laws.Encoding.jmpAbs target rest
  | jmpInd ptr => exact Laws.Encoding.jmpInd ptr rest
  | jsr target => exact Laws.Encoding.jsr target rest

theorem eq_encode_of_decode {bytes rest : List Byte} {i : Instr} (h : decode bytes = .ok (i, rest)) :
    bytes = encode i ++ rest := by
  cases bytes with
  | nil => simp [decode] at h
  | cons op tail =>
    cases hform : operandForm op with
    | none => simp [decode, hform] at h
    | some form =>
      have hencode := encodesAs_of_operandForm hform
      cases form with
      | oneByte mk =>
        match tail with
        | [] => simp [decode, hform] at h
        | b :: tail =>
          obtain ⟨rfl, rfl⟩ : mk b = i ∧ tail = rest := by simpa [decode, hform] using h
          rw [hencode b]
          rfl
      | twoBytes mk =>
        match tail with
        | [] | [_] => simp [decode, hform] at h
        | lo :: hi :: tail =>
          obtain ⟨rfl, rfl⟩ : mk (word hi lo) = i ∧ tail = rest := by simpa [decode, hform] using h
          rw [hencode (word hi lo), lowByte_word, highByte_word]
          rfl

/-- Settles O18: the decoder reads back each instruction, and each operand form encodes what it makes as it was read. -/
theorem decodingIsTheInverseOfEncoding : Obligations.DecodingIsTheInverseOfEncoding := fun _ i rest =>
  ⟨eq_encode_of_decode, fun h => h ▸ decode_encode i rest⟩

/-- Settles O17: each word is the encoding of its instruction. -/
theorem writtenOutWordsDecode : Obligations.WrittenOutWordsDecode :=
  ⟨decode_encode (.nop 0x77#8) [], decode_encode (.ldaImm 0x45#8) [], decode_encode (.ldaZp 0x42#8) [],
    decode_encode (.ldaZpX 0x42#8) [], decode_encode (.ldaAbs 0x1234#16) [],
    decode_encode (.jmpAbs 0x8000#16) [], decode_encode (.jmpInd 0x0200#16) [],
    decode_encode (.jsr 0x9000#16) []⟩

/-! ## Illegal opcodes (R86) -/

/-- The opcode alone decides whether it is rejected as unknown (R88). -/
theorem decode_unknownOpcode_iff (op : Byte) (rest : List Byte) :
    decode (op :: rest) = .error (.unknownOpcode op) ↔ operandForm op = none := by
  cases hform : operandForm op with
  | none => simp [decode, hform]
  | some form =>
    cases form with
    | oneByte mk =>
      match rest with
      | [] | _ :: _ => simp [decode, hform]
    | twoBytes mk =>
      match rest with
      | [] | [_] | _ :: _ :: _ => simp [decode, hform]

/-- The legal opcode bytes of R85, as numbers. -/
def legalOpcodes : List Nat := [0xEA, 0xA9, 0xA5, 0xB5, 0xAD, 0x4C, 0x6C, 0x20]

theorem operandForm_isSome_iff_legal (op : Byte) :
    (operandForm op).isSome = true ↔ op.toNat ∈ legalOpcodes := by
  have htable : legalOpcodes = (opcodeTable.map Prod.fst).map BitVec.toNat := rfl
  rw [operandForm_isSome_iff, htable, List.mem_map_of_injective fun _ _ => BitVec.eq_of_toNat_eq]

theorem operandForm_eq_none_iff (op : Byte) : operandForm op = none ↔ op.toNat ∉ legalOpcodes := by
  rw [← operandForm_isSome_iff_legal, Option.not_isSome_iff_eq_none]

/-- Counting through the 256 bytes finds each legal one once. -/
theorem filter_isSome_perm_legalOpcodes :
    ((List.range 256).filter fun n => (operandForm (BitVec.ofNat 8 n)).isSome).Perm legalOpcodes := by
  refine (List.perm_ext_iff_of_nodup (List.nodup_range.filter _) (by decide)).mpr fun n => ?_
  have hsmall : n ∈ legalOpcodes → n < 256 := (by decide : ∀ n ∈ legalOpcodes, n < 256) n
  rw [List.mem_filter, List.mem_range, operandForm_isSome_iff_legal, BitVec.toNat_ofNat]
  constructor
  · rintro ⟨hn, hlegal⟩
    rwa [Nat.mod_eq_of_lt hn] at hlegal
  · intro hlegal
    exact ⟨hsmall hlegal, by rwa [Nat.mod_eq_of_lt (hsmall hlegal)]⟩

theorem count_illegalOpcodes :
    ((List.range 256).filter fun n => (operandForm (BitVec.ofNat 8 n)).isNone).length = 248 := by
  have hlegal := filter_isSome_perm_legalOpcodes.length_eq
  have htotal := List.length_eq_length_filter_add (l := List.range 256)
    fun n => (operandForm (BitVec.ofNat 8 n)).isNone
  have height : legalOpcodes.length = 8 := rfl
  simp only [Option.not_isNone, List.length_range, hlegal, height] at htotal
  omega

/-- Settles O19: the listed ranges are what the eight legal bytes leave of the 256. -/
theorem illegalOpcodesAreTheListedRanges : Obligations.IllegalOpcodesAreTheListedRanges := by
  refine ⟨fun op rest => ?_, count_illegalOpcodes⟩
  have hop : op.toNat < 256 := op.isLt
  rw [decode_unknownOpcode_iff, operandForm_eq_none_iff]
  simp only [legalOpcodes, List.mem_cons, List.not_mem_nil, or_false]
  omega

end Sys2Proof

namespace Sys2Proof.Machine

/-! ## Placing an instruction -/

/-- The addresses of consecutive bytes are counted from the first one, modulo 2^16. -/
theorem inc16_one_add (pc : Word) (k : Nat) :
    inc16 pc 1 + BitVec.ofNat 16 k = pc + BitVec.ofNat 16 (k + 1) := by
  rw [inc16, BitVec.add_assoc, BitVec.ofNat_add, BitVec.add_comm (BitVec.ofNat 16 k)]
  rfl

theorem toNat_add_ofNat_ne {pc : Word} {k : Nat} (hpos : 0 < k) (hk : k < Config.memSize) :
    (pc + BitVec.ofNat 16 k).toNat ≠ pc.toNat := by
  have hsize : k < 65536 := hk
  bv_omega

theorem Memory.read_place_other {m : Memory} {pc : Word} {bytes : List Byte} {addr : Nat}
    (h : ∀ k < bytes.length, addr ≠ (pc + BitVec.ofNat 16 k).toNat) :
    (m.place pc bytes).read addr = m.read addr := by
  induction bytes generalizing m pc with
  | nil => rfl
  | cons b rest ih =>
    have hfirst : addr ≠ pc.toNat := by simpa using h 0 (Nat.succ_pos _)
    have hrest : ∀ k < rest.length, addr ≠ (inc16 pc 1 + BitVec.ofNat 16 k).toNat := by
      intro k hk
      rw [inc16_one_add]
      exact h (k + 1) (Nat.succ_lt_succ hk)
    rw [place, ih hrest, read_write_other m b hfirst]

/-- Bytes placed are read back as long as they do not run into their own beginning. -/
theorem Memory.read_place {m : Memory} (hwf : m.wf = true) (pc : Word) {bytes : List Byte}
    (hsize : bytes.length ≤ Config.memSize) {k : Nat} (hk : k < bytes.length) :
    (m.place pc bytes).read (pc + BitVec.ofNat 16 k).toNat = bytes[k] := by
  induction bytes generalizing m pc k with
  | nil => exact absurd hk (Nat.not_lt_zero k)
  | cons b rest ih =>
    cases k with
    | zero =>
      have hapart : ∀ j < rest.length, pc.toNat ≠ (inc16 pc 1 + BitVec.ofNat 16 j).toNat := by
        intro j hj
        rw [inc16_one_add]
        exact (toNat_add_ofNat_ne (Nat.succ_pos j) ((Nat.succ_lt_succ hj).trans_le hsize)).symm
      rw [BitVec.add_zero, place, read_place_other hapart]
      exact read_write_same hwf b
    | succ k =>
      rw [place, ← inc16_one_add]
      exact ih (write_wf hwf (toNat_lt_memSize pc) b) _ (Nat.le_of_succ_le hsize)
        (Nat.lt_of_succ_lt_succ hk)

/-- The bytes of the longest instruction (R80) are read back where a step reads them. -/
theorem Memory.bytes_at_of_place_three {m : Memory} (hwf : m.wf = true) (pc : Word) {bytes : List Byte}
    (hlen : bytes.length = 3) :
    [(m.place pc bytes).read pc.toNat, (m.place pc bytes).read (pc + 1#16).toNat,
      (m.place pc bytes).read (pc + 2#16).toNat] = bytes := by
  have hsize : bytes.length ≤ Config.memSize := by simp [hlen, Config.memSize]
  have h0 := read_place hwf pc hsize (k := 0) (by omega)
  have h1 := read_place hwf pc hsize (k := 1) (by omega)
  have h2 := read_place hwf pc hsize (k := 2) (by omega)
  rw [BitVec.add_zero] at h0
  rw [h0, h1, h2]
  obtain ⟨b0, b1, b2, rfl⟩ := List.length_eq_three.mp hlen
  rfl

theorem busy_withFetchWord (s : State) (nbits w : Nat) : (s.withFetchWord nbits w).busy = true := by
  have hcyc : 0 < if 0 < s.cyc then s.cyc else 1 := by split <;> omega
  exact decide_eq_true hcyc

theorem exists_decode_of_decodeTableWord {nbits w : Nat} {i : Instr}
    (h : decodeTableWord nbits w = some i) :
    ∃ rest, decode (tableWordBytes nbits w) = .ok (i, rest) := by
  cases hdec : decode (tableWordBytes nbits w) with
  | error e => simp [decodeTableWord, hdec] at h
  | ok r =>
    obtain ⟨j, rest⟩ := r
    obtain rfl : j = i := by simpa [decodeTableWord, hdec] using h
    exact ⟨rest, rfl⟩

/-- Settles O21: the placed bytes are read back at `PC`, and a step runs the bytes at `PC`. -/
theorem placedTableWordIsRunNext : Obligations.PlacedTableWordIsRunNext := by
  intro s nbits w i hwf h
  obtain ⟨rest, hdec⟩ := exists_decode_of_decodeTableWord h
  rw [← Memory.bytes_at_of_place_three hwf s.pc (rfl : (tableWordBytes nbits w).length = 3)] at hdec
  exact step_of_decode (busy_withFetchWord s nbits w) hdec

end Sys2Proof.Machine

/-! SUPPORT. Proofs: execution. What an iteration spends, where the loop of `Execute` ends, and the same call as a run
of steps. -/

namespace Sys2Proof.Machine

/-! ## What an instruction and an iteration spend -/

/-- The accesses of an instruction that completes add up to the table's cost (R106, R107). -/
theorem effect_cyc (i : Instr) (s : State) : (effect i s).cyc = s.cyc - i.cost := by
  cases i <;> simp [effect, Instr.cost] <;> omega

theorem cost_bounds (i : Instr) : 2 ≤ i.cost ∧ i.cost ≤ 5 := by
  cases i <;> simp [Instr.cost]

/-- Settles O32: the charges of an effect add up to its cost, and an illegal opcode is undone. -/
theorem instructionsCostWhatTheTableSays : Obligations.InstructionsCostWhatTheTableSays := by
  refine ⟨fun i s hc => ⟨effect i s, ?_, effect_cyc i s⟩, fun _ => rfl, fun _ => rfl, fun _ => rfl,
    fun _ => rfl, fun _ => rfl, fun _ => rfl, fun _ => rfl, fun _ => rfl, fun s t hbusy hform h => ?_⟩
  · rw [exec_eq, result_of_completes hc]
  · rw [step_of_unknownOpcode hbusy hform] at h
    cases h
    exact takeFault_cyc _ _

/-- An iteration has the effect of an instruction that completes, or takes a fault (R111). -/
theorem nextState_cases (s : State) :
    (∃ i, nextState s = effect i s) ∨ ∃ cause, nextState s = takeFault s cause := by
  unfold nextState
  cases fetchInstr s with
  | ok i =>
    cases hc : completes i s with
    | true => exact .inl ⟨i, result_of_completes hc⟩
    | false => exact .inr ⟨_, result_of_not_completes hc⟩
  | error cause => exact .inr ⟨cause, rfl⟩

theorem busy_iff {s : State} :
    s.busy = true ↔ s.defined = true ∧ s.fault = none ∧ 0 < s.cyc := by
  simp [State.busy, and_assoc]

/-- An iteration spends 2 to 5 units and latches nothing, or changes nothing but the record (R111). -/
theorem nextState_spends {s : State} (h : s.busy = true) :
    ((nextState s).fault = none ∧ 2 ≤ s.cyc - (nextState s).cyc ∧ s.cyc - (nextState s).cyc ≤ 5) ∨
      ∃ record, nextState s = { s with fault := some record } := by
  obtain ⟨-, hfault, -⟩ := busy_iff.mp h
  obtain ⟨i, hi⟩ | ⟨cause, hcause⟩ := nextState_cases s
  · obtain ⟨hlow, hhigh⟩ := cost_bounds i
    rw [hi, effect_fault, effect_cyc]
    exact .inl ⟨hfault, by omega, by omega⟩
  · exact .inr ⟨_, hcause⟩

/-- Settles O33: the step of a busy state is one iteration. -/
theorem iterationSpendsTwoToFiveUnits : Obligations.IterationSpendsTwoToFiveUnits :=
  fun s h => ⟨nextState s, step_eq_nextState h, nextState_spends h⟩

/-! ## Steps with no call under way -/

theorem step_eq_self {s : State} (hdef : s.defined = true) (hfault : s.fault = none) (hcyc : s.cyc ≤ 0) :
    step s = .next s := by
  simp [step, stepBody, hdef, hfault, Int.not_lt.mpr hcyc]

theorem step_latched {s : State} {record : FaultRecord} (hdef : s.defined = true)
    (hfault : s.fault = some record) : step s = .fault (.stopped record) := by
  simp [step, stepBody, hdef, hfault]

/-- Settles O34: the budget is looked at before the fetch (R103). -/
theorem nothingIsFetchedOnceTheBudgetIsSpent : Obligations.NothingIsFetchedOnceTheBudgetIsSpent :=
  fun _ => step_eq_self

/-- Settles O20: the fetch decodes the bytes it reads, and where it fails at 0xFFFE `exec` fails alike. -/
theorem stepRunsTheDecodedInstruction : Obligations.StepRunsTheDecodedInstruction :=
  fun _ _ _ => step_of_decode

/-! ## The entry of `Execute` -/

/-- The state in which a call of `Execute` that R100 admits ends. -/
def callEnd (cycleBudget : Int) (s : State) : State :=
  loop cycleBudget.toNat { s with cyc := cycleBudget }

theorem execute_eq {s : State} (hdef : s.defined = true) (hfault : s.fault = none) (cycleBudget : Int) :
    execute cycleBudget s = .next (callEnd cycleBudget s, callResult (callEnd cycleBudget s)) := by
  simp [execute, enterExecute, callEnd, hdef, hfault]

theorem execute_latched {s : State} (hdef : s.defined = true) (hfault : s.fault.isSome = true)
    (cycleBudget : Int) : execute cycleBudget s = .refused .faultLatched := by
  obtain ⟨record, hrecord⟩ := Option.isSome_iff_exists.mp hfault
  simp [execute, enterExecute, hdef, hrecord]

/-- Settles O35: one equation for each refusal of R100 and one for the call it admits. -/
theorem executeEntersOrRefuses : Obligations.ExecuteEntersOrRefuses := fun cycleBudget _ =>
  ⟨fun hundef => execute_undefined hundef cycleBudget,
    fun hdef hfault => execute_latched hdef hfault cycleBudget,
    fun hdef hfault =>
      ⟨by simp [enterExecute, hdef, hfault], _, _, execute_eq hdef hfault cycleBudget⟩⟩

theorem callEnd_of_nonpos {cycleBudget : Int} (h : cycleBudget ≤ 0) (s : State) :
    callEnd cycleBudget s = { s with cyc := cycleBudget } := by
  rw [callEnd, Int.toNat_of_nonpos h, loop]

/-- Settles O36: the loop is given no iteration. -/
theorem executeWithNoBudgetRunsNothing : Obligations.ExecuteWithNoBudgetRunsNothing := by
  intro cycleBudget s hbudget hdef hfault
  rw [execute_eq hdef hfault, callEnd_of_nonpos hbudget]
  simp [callResult, hfault]

/-! ## The loop of `Execute` -/

theorem loop_of_not_busy {s : State} (h : s.busy = false) (fuel : Nat) : loop fuel s = s := by
  cases fuel <;> simp [loop, h]

theorem loop_succ_of_busy {s : State} (h : s.busy = true) (fuel : Nat) :
    loop (fuel + 1) s = loop fuel (nextState s) := by
  simp [loop, h, step_eq_nextState h]

/-- A loop may be cut in two. -/
theorem loop_add (fuel fuel' : Nat) (s : State) : loop (fuel + fuel') s = loop fuel' (loop fuel s) := by
  induction fuel generalizing s with
  | zero => rw [Nat.zero_add, loop]
  | succ fuel ih =>
    cases hb : s.busy with
    | true => rw [Nat.succ_add, loop_succ_of_busy hb, loop_succ_of_busy hb, ih]
    | false => simp only [loop_of_not_busy hb]

/-- With as much fuel as the budget has units the loop ends the call: an iteration that latches nothing spends more
than one unit (R103, R111). -/
theorem loop_not_busy {fuel : Nat} {s : State} (h : s.cyc.toNat ≤ fuel) : (loop fuel s).busy = false := by
  induction fuel generalizing s with
  | zero =>
    have hspent : ¬0 < s.cyc := by omega
    simp [loop, State.busy, hspent]
  | succ fuel ih =>
    cases hb : s.busy with
    | false => rwa [loop_of_not_busy hb]
    | true =>
      rw [loop_succ_of_busy hb]
      obtain ⟨-, hlow, -⟩ | ⟨record, hlatched⟩ := nextState_spends hb
      · exact ih (by omega)
      · have hnext : (nextState s).busy = false := by simp [hlatched, State.busy]
        rwa [loop_of_not_busy hnext]

/-- Fuel beyond the budget's units changes nothing. -/
theorem loop_eq_of_le {fuel : Nat} {s : State} (h : s.cyc.toNat ≤ fuel) :
    loop fuel s = loop s.cyc.toNat s := by
  obtain ⟨extra, rfl⟩ := Nat.exists_eq_add_of_le h
  rw [loop_add, loop_of_not_busy (loop_not_busy (Nat.le_refl _))]

theorem callEnd_not_busy (cycleBudget : Int) (s : State) : (callEnd cycleBudget s).busy = false :=
  loop_not_busy (s := { s with cyc := cycleBudget }) (Nat.le_refl _)

/-! ## How a call ends -/

/-- What every state of a call meets: a defined core, `CYC` from four below 0 up to the budget, and above 0 where a
record is latched. -/
structure WithinCall (cycleBudget : Int) (s : State) : Prop where
  defined : s.defined = true
  cyc_le : s.cyc ≤ cycleBudget
  le_cyc : 0 < cycleBudget → -4 ≤ s.cyc
  cyc_pos : s.fault ≠ none → 0 < s.cyc

theorem withinCall_of_entered {s : State} (hdef : s.defined = true) (hfault : s.fault = none)
    (cycleBudget : Int) : WithinCall cycleBudget { s with cyc := cycleBudget } where
  defined := hdef
  cyc_le := Int.le_refl _
  le_cyc h := show -4 ≤ cycleBudget by omega
  cyc_pos h := absurd hfault h

theorem nextState_defined {s : State} (h : s.busy = true) : (nextState s).defined = true := by
  obtain ⟨-, -, -, -, -, -, -, -, hdef⟩ := step_keeps (step_eq_nextState h)
  exact hdef.trans (busy_iff.mp h).1

theorem nextState_withinCall {cycleBudget : Int} {s : State} (hs : WithinCall cycleBudget s)
    (h : s.busy = true) : WithinCall cycleBudget (nextState s) := by
  obtain ⟨-, -, hpos⟩ := busy_iff.mp h
  obtain ⟨hfault, hlow, hhigh⟩ | ⟨record, hlatched⟩ := nextState_spends h
  · have hle := hs.cyc_le
    exact ⟨nextState_defined h, by omega, by omega, fun hne => absurd hfault hne⟩
  · rw [hlatched]
    exact ⟨hs.defined, hs.cyc_le, hs.le_cyc, fun _ => hpos⟩

theorem step_keeps_withinCall {cycleBudget : Int} {s t : State} (hs : WithinCall cycleBudget s)
    (h : step s = .next t) : WithinCall cycleBudget t := by
  obtain ⟨hdef, hfault, -⟩ := step_cases h
  by_cases hcyc : 0 < s.cyc
  · have hbusy := busy_iff.mpr ⟨hdef, hfault, hcyc⟩
    rw [step_eq_nextState hbusy, Host.Outcome.next.injEq] at h
    exact h ▸ nextState_withinCall hs hbusy
  · rw [step_eq_self hdef hfault (Int.not_lt.mp hcyc), Host.Outcome.next.injEq] at h
    exact h ▸ hs

theorem callEnd_withinCall {s : State} (hdef : s.defined = true) (hfault : s.fault = none)
    (cycleBudget : Int) : WithinCall cycleBudget (callEnd cycleBudget s) :=
  loop_induction (P := WithinCall cycleBudget) (fun _ _ => step_keeps_withinCall) _ _
    (withinCall_of_entered hdef hfault cycleBudget)

/-- A defined core that is not busy and latches no fault has spent its budget. -/
theorem cyc_nonpos_of_not_busy {s : State} (h : s.busy = false) (hdef : s.defined = true)
    (hfault : s.fault = none) : s.cyc ≤ 0 := by
  simpa [State.busy, hdef, hfault] using h

/-- Settles O37: the fuel suffices, so where the call ends no call is under way, and the bounds held throughout. -/
theorem executeAlwaysEndsInDoneOrFault : Obligations.ExecuteAlwaysEndsInDoneOrFault := by
  intro cycleBudget s hdef hfault
  have hend := callEnd_withinCall hdef hfault cycleBudget
  refine ⟨_, _, execute_eq hdef hfault cycleBudget, ?_⟩
  cases hf : (callEnd cycleBudget s).fault with
  | none =>
    have hspent := cyc_nonpos_of_not_busy (callEnd_not_busy cycleBudget s) hend.defined hf
    exact .inl ⟨by simp [callResult, hf], rfl, hspent, hend.le_cyc⟩
  | some record =>
    exact .inr ⟨record, by simp [callResult, hf], rfl, hend.cyc_pos (by simp [hf]), hend.cyc_le⟩

/-! ## A call begins with its first instruction (R108) -/

/-- Where the first iteration latches nothing, the rest of the loop needs no more than the budget it left. -/
theorem loop_cyc_of_busy {s : State} (h : s.busy = true) (hfault : (nextState s).fault = none) :
    loop s.cyc.toNat s = loop (nextState s).cyc.toNat (nextState s) := by
  obtain ⟨-, -, hpos⟩ := busy_iff.mp h
  obtain ⟨-, hlow, -⟩ | ⟨record, hlatched⟩ := nextState_spends h
  · obtain ⟨fuel, hfuel⟩ := Nat.exists_eq_add_one.mpr (Int.lt_toNat.mpr hpos)
    rw [hfuel, loop_succ_of_busy h, loop_eq_of_le (by omega)]
  · simp [hlatched] at hfault

/-- Settles O38: the rest of the loop has fuel enough, and the state it starts from is the one `Execute` enters. -/
theorem executeIsItsFirstInstructionThenTheRest :
    Obligations.ExecuteIsItsFirstInstructionThenTheRest := by
  intro cycleBudget s t hbudget hdef hfault h ht
  have hbusy : State.busy { s with cyc := cycleBudget } = true := busy_iff.mpr ⟨hdef, hfault, hbudget⟩
  rw [step_eq_nextState hbusy, Host.Outcome.next.injEq] at h
  subst h
  have hrest : callEnd cycleBudget s = callEnd _ (nextState { s with cyc := cycleBudget }) :=
    loop_cyc_of_busy hbusy ht
  rw [execute_eq hdef hfault, execute_eq (nextState_defined hbusy) ht, hrest]

/-! ## A call is a run of steps -/

theorem run_succ_of_next {M : Host.Core} {s t : M.State} (h : M.step s = .next t) (k : Nat) :
    M.run (k + 1) s = M.run k t := by
  rw [Host.Core.run, h]

theorem run_succ_of_fault {M : Host.Core} {s : M.State} {r : M.Fault} (h : M.step s = .fault r)
    (k : Nat) : M.run (k + 1) s = .fault r := by
  rw [Host.Core.run, h]

theorem run_of_step_self {M : Host.Core} {s : M.State} (h : M.step s = .next s) (k : Nat) :
    M.run k s = .next s := by
  induction k with
  | zero => rfl
  | succ k ih => rw [run_succ_of_next h, ih]

/-- The loop is a number of steps, not more than its fuel. -/
theorem exists_run_eq_run_loop (fuel : Nat) (s : State) :
    ∃ j ≤ fuel, ∀ k, core.run (j + k) s = core.run k (loop fuel s) := by
  induction fuel generalizing s with
  | zero => exact ⟨0, Nat.le_refl 0, fun k => by rw [Nat.zero_add, loop]⟩
  | succ fuel ih =>
    cases hb : s.busy with
    | true =>
      obtain ⟨j, hj, hrun⟩ := ih (nextState s)
      refine ⟨j + 1, Nat.succ_le_succ hj, fun k => ?_⟩
      have hfirst : core.run (j + k + 1) s = core.run (j + k) (nextState s) :=
        run_succ_of_next (M := core) (step_eq_nextState hb) _
      rw [Nat.add_right_comm, hfirst, hrun, loop_succ_of_busy hb]
    | false => exact ⟨0, Nat.zero_le _, fun k => by rw [Nat.zero_add, loop_of_not_busy hb]⟩

/-- Settles O39: a run of more steps than the budget has units passes through the end of the call with a step to
spare, which stays there or answers the latched fault. -/
theorem executeAgreesWithTheIteratedStep : Obligations.ExecuteAgreesWithTheIteratedStep := by
  intro cycleBudget s s' answer hdef hfault h k hk
  obtain ⟨-, -, hend, -⟩ := execute_cases h
  change s' = callEnd cycleBudget s at hend
  have hs' : s'.defined = true := hend ▸ (callEnd_withinCall hdef hfault cycleBudget).defined
  obtain ⟨j, hj, hrun⟩ := exists_run_eq_run_loop cycleBudget.toNat { s with cyc := cycleBudget }
  obtain ⟨rest, rfl⟩ := Nat.exists_eq_add_of_lt (hj.trans_lt hk)
  rw [Nat.add_assoc, hrun, ← callEnd, ← hend]
  refine ⟨fun hf => ?_, fun record hf => ?_⟩
  · have hspent := cyc_nonpos_of_not_busy (hend ▸ callEnd_not_busy cycleBudget s) hs' hf
    exact run_of_step_self (M := core) (step_eq_self hs' hf hspent) _
  · exact run_succ_of_fault (M := core) (step_latched hs' hf) rest

/-! ## The host's reads of the core -/

theorem harness_observe {s : State} (hbusy : s.busy = false) (hdef : s.defined = true)
    (what : Observable) : harness (.observe what) s = .next (s, observe what s) := by
  simp [harness, hbusy, hdef]

/-- Settles O51: each read answers its observable. -/
theorem hostReadsAnswerTheNamedState : Obligations.HostReadsAnswerTheNamedState := fun _ hbusy hdef =>
  have h := harness_observe hbusy hdef
  ⟨h .A, h .X, h .Y, h .PC, h .SP, h .C, h .Z, h .I, h .D, h .B, h .V, h .N, h .CYC, h .FAULT⟩

end Sys2Proof.Machine

/-! SUPPORT. Proofs: the addressing modes. The address of the indexed zero page, and the state its mode leaves. -/

namespace Sys2Proof.Machine

/-- The mode passes its operand byte and does nothing else; the addition is free (R124). -/
theorem eaZpX_eq (zp : Byte) (s : State) :
    eaZpX zp s = .ok ((add8 zp s.x).setWidth 16, (s.charge 1).setPc (s.pc + 1#16)) := by
  simp [eaZpX, passByte_eq, bind, Except.bind, pure, Except.pure]

/-- A byte sum extended to an address keeps its value modulo 256, so it names a cell of the zero page. -/
theorem toNat_setWidth_add8 (a b : Byte) :
    ((add8 a b).setWidth 16).toNat = (a.toNat + b.toNat) % 256 := by
  rw [BitVec.toNat_setWidth_of_le (by decide), add8, BitVec.toNat_add]

/-- Settles O23: the address is the byte sum extended, and the state is that after the operand byte. -/
theorem zeroPageIndexWrapsModulo256 : Obligations.ZeroPageIndexWrapsModulo256 := by
  intro zp s
  refine ⟨(add8 zp s.x).setWidth 16, ?_, toNat_setWidth_add8 zp s.x⟩
  rw [eaZpX_eq, ← add_ofNat_eq_ofNat_mod]
  rfl

end Sys2Proof.Machine

/-! SUPPORT. Proofs: NOP (spec/42_nop.md R140). -/

namespace Sys2Proof.Machine

/-- Settles O3: the operand byte enters neither the decoding nor the result, and the step follows from the decoding. -/
theorem nopDiscardsOneByte : Obligations.NopDiscardsOneByte := by
  refine ⟨Laws.Encoding.nop, execNop_eq, fun s hbusy hop => ?_⟩
  refine step_of_decode (rest := [s.mem.read (s.pc + 2#16).toNat]) hbusy ?_
  rw [hop]
  exact Laws.Encoding.nop _ _

end Sys2Proof.Machine

/-! SUPPORT. Proofs: the load family (spec/43_load.md). A step by the operand form of its opcode, the state a load
leaves, and LDA in its four addressing modes. -/

namespace Sys2Proof

/-! ## Decoding by the operand form of the opcode (R81) -/

theorem decode_oneByte {op : Byte} {mk : Byte → Instr} (h : operandForm op = some (.oneByte mk))
    (b : Byte) (rest : List Byte) : decode (op :: b :: rest) = .ok (mk b, rest) := by
  simp only [decode, h]

theorem decode_twoBytes {op : Byte} {mk : Word → Instr} (h : operandForm op = some (.twoBytes mk))
    (lo hi : Byte) (rest : List Byte) :
    decode (op :: lo :: hi :: rest) = .ok (mk (word hi lo), rest) := by
  simp only [decode, h]

end Sys2Proof

namespace Sys2Proof.Machine

/-! ## A step by the operand form of its opcode -/

section
variable {s : State} {op : Byte} (hbusy : s.busy = true) (hop : s.mem.read s.pc.toNat = op)
include hbusy hop

theorem step_of_oneByte {mk : Byte → Instr} (hform : operandForm op = some (.oneByte mk)) :
    step s = exec (mk (s.mem.read (s.pc + 1#16).toNat)) s := by
  apply step_of_decode hbusy
  rw [hop]
  exact decode_oneByte hform _ _

/-- This holds with the opcode at 0xFFFE too, where the fetch of the operand and the meaning raise the same fault
(R234). -/
theorem step_of_twoBytes {mk : Word → Instr} (hform : operandForm op = some (.twoBytes mk)) :
    step s =
      exec (mk (word (s.mem.read (s.pc + 2#16).toNat) (s.mem.read (s.pc + 1#16).toNat))) s := by
  apply step_of_decode hbusy
  rw [hop]
  exact decode_twoBytes hform _ _ _

end

/-! ## The status-update hook, and the states a load leaves -/

/-- Settles O24: the hook's definition, written out field by field. -/
theorem statusUpdateHookWritesOnlyZAndN : Obligations.StatusUpdateHookWritesOnlyZAndN :=
  fun _ _ => rfl

/-- A load writes `A`, `Z` and `N` and nothing else (R151). -/
theorem loadA_eq (v : Byte) (s : State) :
    loadA v s =
      { s with
        a := v
        flags := { s.flags with z := decide (v = 0x00#8), n := v.getLsbD 7 } } :=
  statusUpdateHookWritesOnlyZAndN (s.setA v) v

/-- The load from memory: the instruction of `n` bytes is passed at one unit each, and the access costs one more
(R106). -/
theorem loadA_charge_passed (v : Byte) (s : State) (n : Nat) :
    loadA v ((passed s n).charge 1) =
      { s with
        a := v
        flags := { s.flags with z := decide (v = 0x00#8), n := v.getLsbD 7 }
        pc := s.pc + BitVec.ofNat 16 n
        cyc := s.cyc - (n + 1) } := by
  rw [loadA_eq, ← Int.sub_sub]
  rfl

/-- The fault of a word access at 0xFFFF is latched and everything else is as at the boundary (R204). -/
theorem takeFault_lastWord (s : State) (write : Bool) :
    takeFault s (lastWord write) =
      { s with fault := some (.outOfRangeAccess 0xFFFF#16 .word write s.pc) } := rfl

/-! ## LDA in its four addressing modes -/

/-- Settles O4: the operand is loaded once its two bytes are passed. -/
theorem ldaImmediateLoadsItsOperand : Obligations.LdaImmediateLoadsItsOperand := by
  refine ⟨decode_oneByte rfl, fun imm s => ?_, fun _ hbusy hop => step_of_oneByte hbusy hop rfl⟩
  calc exec (.ldaImm imm) s
    _ = .next (loadA imm (passed s 2)) := execLdaImm_eq imm s
    _ = _ := by rw [loadA_eq]; rfl

/-- Settles O5: the zero-page address, extended to a word, names the same cell. -/
theorem ldaZeroPageLoadsItsCell : Obligations.LdaZeroPageLoadsItsCell := by
  refine ⟨decode_oneByte rfl, ?_, fun _ hbusy hop => step_of_oneByte hbusy hop rfl⟩
  rintro zp _ s rfl
  have hea : (zp.setWidth 16).toNat = zp.toNat := BitVec.toNat_setWidth_of_le (by decide)
  calc exec (.ldaZp zp) s
    _ = .next (loadA (s.mem.read (zp.setWidth 16).toNat) ((passed s 2).charge 1)) := execLdaZp_eq zp s
    _ = _ := by rw [hea, loadA_charge_passed]; rfl

/-- Settles O6: the address of the mode is the sum modulo 256. -/
theorem ldaZeroPageXLoadsItsIndexedCell : Obligations.LdaZeroPageXLoadsItsIndexedCell := by
  refine ⟨decode_oneByte rfl, ?_, fun _ hbusy hop => step_of_oneByte hbusy hop rfl⟩
  rintro zp _ s rfl
  calc exec (.ldaZpX zp) s
    _ = .next (loadA (s.mem.read ((add8 zp s.x).setWidth 16).toNat) ((passed s 2).charge 1)) :=
      execLdaZpX_eq zp s
    _ = _ := by rw [toNat_setWidth_add8, loadA_charge_passed]; rfl

/-- Settles O7: away from 0xFFFE the operand word is passed and its cell loaded; at 0xFFFE a step runs the meaning
too, and that is the fault. -/
theorem ldaAbsoluteLoadsItsCell : Obligations.LdaAbsoluteLoadsItsCell := by
  have hfault : ∀ (addr : Word) (s : State), s.pc = 0xFFFE#16 →
      exec (.ldaAbs addr) s =
        .next { s with fault := some (.outOfRangeAccess 0xFFFF#16 .word false s.pc) } := by
    intro addr s hpc
    rw [exec_misplaced rfl hpc, takeFault_lastWord]
  refine ⟨decode_twoBytes rfl, ?_, hfault, fun _ hbusy hop _ => step_of_twoBytes hbusy hop rfl,
    fun _ hbusy hop hpc => (step_of_twoBytes hbusy hop rfl).trans (hfault _ _ hpc)⟩
  rintro addr _ s hpc rfl
  calc exec (.ldaAbs addr) s
    _ = .next (loadA (s.mem.read addr.toNat) ((passed s 3).charge 1)) := execLdaAbs_eq addr hpc
    _ = _ := by rw [loadA_charge_passed]; rfl

end Sys2Proof.Machine

/-! SUPPORT. Proofs: the control-transfer family (spec/44_control_transfer.md). The state of a jump that makes a word
access, and the fault of an operand word at the end of memory as `exec` and as `step` answer it. -/

namespace Sys2Proof.Machine

/-! ## What the family shares -/

/-- An access after the `n` bytes of an instruction adds its cost to theirs (R106). -/
theorem charge_passed (s : State) (n : Nat) (cost : Int) :
    (passed s n).charge cost =
      { s with pc := s.pc + BitVec.ofNat 16 n, cyc := s.cyc - (n + cost) } := by
  rw [← Int.sub_sub]
  rfl

/-- `exec_misplaced` with the record written out. -/
theorem exec_latches_of_misplaced {i : Instr} (hlen : i.length = 3) {s : State} (hpc : s.pc = 0xFFFE#16) :
    exec i s = .next { s with fault := some (.outOfRangeAccess 0xFFFF#16 .word false s.pc) } := by
  rw [exec_misplaced hlen hpc, takeFault_lastWord]

/-- A step at 0xFFFE on an opcode with an operand word runs the meaning, and that is the fault (R234). -/
theorem step_latches_of_misplaced {s : State} {op : Byte} {mk : Word → Instr} (hbusy : s.busy = true)
    (hop : s.mem.read s.pc.toNat = op) (hform : operandForm op = some (.twoBytes mk))
    (hpc : s.pc = 0xFFFE#16) :
    step s = .next { s with fault := some (.outOfRangeAccess 0xFFFF#16 .word false s.pc) } :=
  (step_of_twoBytes hbusy hop hform).trans (exec_latches_of_misplaced (length_of_twoBytes hform _) hpc)

/-! ## JMP in its two addressing modes -/

/-- Settles O8: the jump passes its three bytes and then sets `PC`. -/
theorem jmpAbsoluteGoesToItsTarget : Obligations.JmpAbsoluteGoesToItsTarget :=
  ⟨decode_twoBytes rfl,
    fun target _ hpc => execJmpAbs_eq target hpc,
    fun _ _ hpc => exec_latches_of_misplaced rfl hpc,
    fun _ hbusy hop _ => step_of_twoBytes hbusy hop rfl,
    fun _ hbusy hop hpc => step_latches_of_misplaced hbusy hop rfl hpc⟩

/-- With the opcode at 0xFFFE the operand word cannot be fetched, whatever the pointer; elsewhere the pointer 0xFFFF has no
pointee. The record is the same (R126, R234). -/
theorem exec_jmpInd_latches {ptr : Word} {s : State} (h : s.pc = 0xFFFE#16 ∨ ptr = 0xFFFF#16) :
    exec (.jmpInd ptr) s =
      .next { s with fault := some (.outOfRangeAccess 0xFFFF#16 .word false s.pc) } := by
  by_cases hpc : s.pc = 0xFFFE#16
  · exact exec_latches_of_misplaced rfl hpc
  · obtain rfl : ptr = 0xFFFF#16 := h.resolve_left hpc
    rw [exec, execJmpInd_noPointee hpc, takeFault_lastWord]

/-- Settles O9: the pointee is read as one word access after the three bytes. -/
theorem jmpIndirectGoesToItsPointee : Obligations.JmpIndirectGoesToItsPointee := by
  refine ⟨decode_twoBytes rfl, fun ptr s hpc hptr => ?_, fun _ _ => exec_jmpInd_latches,
    fun _ hbusy hop _ => step_of_twoBytes hbusy hop rfl,
    fun _ hbusy hop hpc => step_latches_of_misplaced hbusy hop rfl hpc⟩
  rw [exec, execJmpInd_eq hpc hptr, charge_passed]
  rfl

/-! ## JSR -/

/-- The state after the push and the jump (R172). -/
theorem exec_jsr_eq (target : Word) {s : State} (hpc : s.pc ≠ 0xFFFE#16) (hsp : s.sp ≠ 0xFFFF#16) :
    exec (.jsr target) s =
      .next { s with
        mem := pushed s.mem s.sp (s.pc + 3#16)
        pc := target
        cyc := s.cyc - 5 } := by
  rw [exec, execJsr_eq target hpc hsp, charge_passed]
  rfl

/-- Settles O10: memory is that after the push, whose cells the lemmas on `pushed` give; the fetch of the target comes
before the push, so its fault comes first (R207). -/
theorem jsrPushesAndGoesToItsTarget : Obligations.JsrPushesAndGoesToItsTarget := by
  refine ⟨decode_twoBytes rfl, fun target s hwf hpc hsp => ?completes,
    fun _ _ hpc => exec_latches_of_misplaced rfl hpc,
    fun target s hpc hsp => ?pushFails,
    fun _ hbusy hop _ => step_of_twoBytes hbusy hop rfl,
    fun _ hbusy hop hpc => step_latches_of_misplaced hbusy hop rfl hpc⟩
  case completes =>
    refine ⟨pushed s.mem s.sp (s.pc + 3#16), exec_jsr_eq target hpc hsp, ?low, ?high,
      fun _ => read_pushed_other _ _ _⟩
    case low => rw [read_pushed_low hwf, lowByte_eq_ofNat]
    case high => rw [← toNat_succ hsp, read_pushed_high hwf hsp, highByte_eq_ofNat]
  case pushFails => rw [exec, execJsr_pushFails target hpc hsp, takeFault_lastWord]

end Sys2Proof.Machine

/-! SUPPORT. Proofs: exceptions (spec/60_exceptions.md). Where an instruction completes, in the words of the table of R201;
an illegal opcode; a latched fault; and the push that cannot fail after `Reset`. -/

namespace Sys2Proof.Machine

/-! ## The table of R201 -/

/-- An instruction completes exactly where no row of the table applies. -/
theorem completes_iff {i : Instr} {s : State} :
    completes i s = true ↔
      ¬(i.length = 3 ∧ s.pc = 0xFFFE#16) ∧ i ≠ .jmpInd 0xFFFF#16 ∧
        ¬((∃ target, i = .jsr target) ∧ s.sp = 0xFFFF#16) := by
  cases i with
  | nop | ldaImm | ldaZp | ldaZpX | ldaAbs | jmpAbs | jmpInd | jsr => simp [Instr.length]

/-- Settles O14: a misplaced operand word, a pointer without pointee and a failing push each latch their record; anywhere
else the instruction completes, and its effect does not touch `FAULT`. -/
theorem outOfRangeAccessIsRaisedExactlyWhereTabled :
    Obligations.OutOfRangeAccessIsRaisedExactlyWhereTabled := by
  refine ⟨fun _ _ hlen hpc => exec_latches_of_misplaced hlen hpc,
    fun _ _ => exec_jmpInd_latches (.inr rfl), ?push, fun i s hplaced hpointee hpush => ?complement⟩
  case push =>
    intro target s hpc hsp
    rw [exec, execJsr_pushFails target hpc hsp, takeFault_lastWord]
  case complement =>
    have hc : completes i s = true := completes_iff.mpr ⟨hplaced, hpointee, hpush⟩
    refine ⟨effect i s, ?_, effect_fault i s⟩
    rw [exec_eq, result_of_completes hc]

/-! ## Illegal opcodes (R202) -/

/-- Settles O15: the eight bytes are those of the opcode table, so the lookup fails and the fetch raises the fault. -/
theorem unknownOpcodeIsRecordedWithItsAddress : Obligations.UnknownOpcodeIsRecordedWithItsAddress := by
  intro s hbusy hillegal
  have hform : operandForm (s.mem.read s.pc.toNat) = none := by
    rw [← Option.not_isSome_iff_eq_none, operandForm_isSome_iff]
    exact hillegal
  exact step_of_unknownOpcode hbusy hform

/-! ## A latched fault (R206) -/

theorem busy_of_latched {s : State} {record : FaultRecord} (h : s.fault = some record) :
    s.busy = false := by
  simp [State.busy, h]

theorem harness_reset {s : State} (hbusy : s.busy = false) :
    harness .reset s = .next (State.reset, .unit) := by
  simp [harness, hbusy]

theorem harness_execute {s : State} (hbusy : s.busy = false) (cycleBudget : Int) :
    harness (.execute cycleBudget) s = execute cycleBudget s := by
  simp [harness, hbusy]

/-- Settles O16: no call is under way, so every read and `Reset` are answered; `Execute` is refused at its entry, and the
other operations leave the state or store to memory. -/
theorem faultStaysLatchedUntilReset : Obligations.FaultStaysLatchedUntilReset := by
  intro s record hdef hfault
  have hbusy : s.busy = false := busy_of_latched hfault
  have hread := harness_observe hbusy hdef
  have hexecute : ∀ cycleBudget, harness (.execute cycleBudget) s = .refused .faultLatched := by
    intro cycleBudget
    rw [harness_execute hbusy, execute_latched hdef (Option.isSome_of_mem hfault)]
  refine ⟨hexecute, step_latched hdef hfault, hread, hfault ▸ hread .FAULT, hread .PC, hread .CYC,
    fun op s' answer hop h => ?others, harness_reset hbusy, rfl⟩
  case others =>
    obtain rfl | ⟨m, -, rfl⟩ | ⟨rfl, -⟩ | ⟨cycleBudget, rfl, -⟩ := harness_cases h
    · exact hfault
    · exact hfault
    · exact absurd rfl hop
    · simp [hexecute] at h

/-! ## The push after `Reset` -/

/-- The one write that fails is a push at 0xFFFF. -/
theorem failsOnWrite_eq_false {i : Instr} {s : State} (hc : completes i s = false)
    (hsp : s.sp ≠ 0xFFFF#16) : failsOnWrite i s = false := by
  cases i with
  | jsr target => simpa [failsOnWrite, hsp] using hc
  | nop | ldaImm | ldaZp | ldaZpX | ldaAbs | jmpAbs | jmpInd => rfl

/-- With a word's room at `SP`, what a step latches is an illegal opcode or a read at 0xFFFF. -/
theorem step_fault_cases {s t : State} (hsp : s.sp ≠ 0xFFFF#16) (h : step s = .next t) :
    t.fault = none ∨ (∃ op, t.fault = some (.unknownOpcode op s.pc)) ∨
      t.fault = some (.outOfRangeAccess 0xFFFF#16 .word false s.pc) := by
  obtain ⟨-, hfault, ⟨-, rfl⟩ | ⟨-, i, -, hexec⟩ | ⟨-, cause, hfetch, rfl⟩⟩ := step_cases h
  · exact .inl hfault
  · obtain ⟨-, rfl⟩ | ⟨hc, rfl⟩ := exec_next_cases hexec
    · exact .inl ((effect_fault i s).trans hfault)
    · rw [failsOnWrite_eq_false hc hsp, takeFault_lastWord]
      exact .inr (.inr rfl)
  · obtain ⟨op, -, rfl⟩ | rfl := fetchInstr_error_cases hfetch
    · exact .inr (.inl ⟨op, rfl⟩)
    · exact .inr (.inr rfl)

theorem sp_of_asResetLeft {s : State} (h : s.asResetLeft = true) : s.sp = Config.resetSP := by
  simp only [State.asResetLeft, Bool.and_eq_true, beq_iff_eq, and_assoc] at h
  obtain ⟨-, -, -, hsp, -⟩ := h
  exact hsp

/-- Settles O44: after `Reset` the stack pointer is 0x0100, where a word fits. -/
theorem pushNeverFailsAfterReset : Obligations.PushNeverFailsAfterReset := by
  intro s t addr width pc hs h
  have hsp : s.sp ≠ 0xFFFF#16 := by
    rw [sp_of_asResetLeft hs]
    decide
  obtain hf | ⟨op, hf⟩ | hf := step_fault_cases hsp h <;> simp [hf]

end Sys2Proof.Machine

/-! SUPPORT. Proofs: the host interface (spec/70_reset_and_hazards.md). The invariant under every host operation, what the
memory operations answer and change, and what the host may do before the first `Reset`. -/

namespace Sys2Proof.Machine

/-! ## The invariant -/

theorem HostStores.wf {m m' : Memory} (h : m.wf = true) (hstores : HostStores m m') : m'.wf = true := by
  cases hstores with
  | clear => exact Memory.initialized_wf
  | byte hw => exact Memory.writeByte_wf h hw
  | word hw => exact Memory.writeWord_wf h hw

/-- The record is judged by `PC` alone, so the invariant survives any canonical memory. -/
theorem setMem_inv {s : State} {m : Memory} (hs : s.inv = true) (hm : m.wf = true) :
    (s.setMem m).inv = true := by
  obtain ⟨-, hlegal⟩ := Bool.and_eq_true_iff.mp hs
  exact Bool.and_eq_true_iff.mpr ⟨hm, hlegal⟩

/-- Settles O42: a host operation stores canonically, resets, or runs steps from a state that differs in `CYC`, which the
invariant does not read; every step keeps the invariant. -/
theorem everyHostOperationKeepsTheInvariant : Obligations.EveryHostOperationKeepsTheInvariant := by
  intro op s s' answer hs h
  obtain rfl | ⟨m, hstores, rfl⟩ | ⟨-, rfl⟩ | ⟨cycleBudget, -, rfl⟩ := harness_cases h
  · exact hs
  · exact setMem_inv hs (hstores.wf (mem_wf_of_inv hs))
  · exact resetMeetsTheInvariant.1
  · have hentered : State.inv { s with cyc := cycleBudget } = true := hs
    exact loop_induction (P := fun s => s.inv = true) (fun _ _ => step_keeps_inv) _ _ hentered

/-! ## What each operation answers where no call is under way -/

section
variable {s : State} (hidle : s.busy = false)
include hidle

theorem harness_clearMemory :
    harness .clearMemory s = .next (s.setMem Memory.initialized, .unit) := by
  simp [harness, hidle]

theorem harness_readByte (addr : Nat) :
    harness (.readByte addr) s = .next (answerRead s .byte (s.mem.readByte addr)) := by
  simp [harness, hidle]

theorem harness_readWord (addr : Nat) :
    harness (.readWord addr) s = .next (answerRead s .word (s.mem.readWord addr)) := by
  simp [harness, hidle]

theorem harness_writeByte (addr : Nat) (v : Byte) :
    harness (.writeByte addr v) s = .next (answerWrite s (s.mem.writeByte addr v)) := by
  simp [harness, hidle]

theorem harness_writeWord (v : Word) (addr : Nat) :
    harness (.writeWord v addr) s = .next (answerWrite s (s.mem.writeWord v addr)) := by
  simp [harness, hidle]

theorem harness_readByte_within {addr : Nat} (haddr : addr < Config.memSize) :
    harness (.readByte addr) s = .next (s, .byte (s.mem.read addr)) := by
  rw [harness_readByte hidle, Memory.readByte_eq _ haddr, answerRead]

theorem harness_readWord_within {addr : Nat} (haddr : addr + 1 < Config.memSize) :
    harness (.readWord addr) s =
      .next (s, .word (word (s.mem.read (addr + 1)) (s.mem.read addr))) := by
  rw [harness_readWord hidle, Memory.readWord_eq _ haddr, answerRead]

end

theorem harness_observe_undefined {s : State} (hdef : s.defined = false) (what : Observable) :
    harness (.observe what) s = .refused .undefinedBeforeReset := by
  simp [harness, busy_of_undefined hdef, hdef]

/-- Settles O47: the primitives answer inside and beyond the capacity, and the host is given their answer. -/
theorem hostReadsAndWritesMemory : Obligations.HostReadsAndWritesMemory := by
  intro s hidle
  refine ⟨⟨harness_clearMemory hidle, Memory.read_initialized⟩,
    fun _ => harness_readByte_within hidle, fun _ => harness_readWord_within hidle,
    fun addr v haddr => ?writeByte, fun addr v haddr => ?writeWord,
    fun addr haddr => ?readByteBeyond, fun addr haddr => ?readWordBeyond,
    fun addr v haddr => ?writeByteBeyond, fun addr v haddr => ?writeWordBeyond⟩
  case writeByte => rw [harness_writeByte hidle, Memory.writeByte_eq _ haddr, answerWrite, State.setMem]
  case writeWord => rw [harness_writeWord hidle, Memory.writeWord_eq _ haddr, answerWrite, State.setMem]
  case readByteBeyond => rw [harness_readByte hidle, Memory.readByte_beyond _ haddr, answerRead]
  case readWordBeyond => rw [harness_readWord hidle, Memory.readWord_beyond _ haddr, answerRead]
  case writeByteBeyond => rw [harness_writeByte hidle, Memory.writeByte_beyond _ haddr, answerWrite]
  case writeWordBeyond => rw [harness_writeWord hidle, Memory.writeWord_beyond _ haddr, answerWrite]

/-! ## What the operations other than `Reset` and `Execute` change -/

theorem not_busy_of_harness_next {op : HarnessOp} {s : State} {r : State × HarnessAnswer}
    (h : harness op s = .next r) : s.busy = false := by
  cases hb : s.busy with
  | true => simp [harness, hb] at h
  | false => rfl

/-- A failing write of the host changes nothing (R54). -/
theorem state_of_answerWrite_outOfRange {s s' : State} {r : Except AccessError Memory}
    {error : AccessError} (h : answerWrite s r = (s', .outOfRangeAccess error)) : s' = s := by
  cases r with
  | ok m => cases h
  | error e => cases h; rfl

theorem state_of_harness_observe {what : Observable} {s s' : State} {answer : HarnessAnswer}
    (h : harness (.observe what) s = .next (s', answer)) : s' = s := by
  cases hdef : s.defined with
  | true => rw [harness_observe (not_busy_of_harness_next h) hdef] at h; cases h; rfl
  | false => simp [harness_observe_undefined hdef] at h

/-- The operations of the host that read memory or the core. -/
def HarnessOp.IsRead (op : HarnessOp) : Prop :=
  (∃ addr, op = .readByte addr ∨ op = .readWord addr) ∨ ∃ what, op = .observe what

theorem state_of_harness_read {op : HarnessOp} {s s' : State} {answer : HarnessAnswer}
    (hread : op.IsRead) (h : harness op s = .next (s', answer)) : s' = s := by
  have hidle := not_busy_of_harness_next h
  obtain ⟨addr, rfl | rfl⟩ | ⟨what, rfl⟩ := hread
  · rw [harness_readByte hidle] at h
    exact state_of_answerRead (Host.Outcome.next.inj h)
  · rw [harness_readWord hidle] at h
    exact state_of_answerRead (Host.Outcome.next.inj h)
  · exact state_of_harness_observe h

/-- A host operation that answers `OutOfRangeAccess` is a read or a failing write: `Initialize` and `Reset` answer nothing,
and `Execute` answers `Done` or `Fault`. -/
theorem harness_outOfRange_keeps {op : HarnessOp} {s s' : State} {error : AccessError}
    (h : harness op s = .next (s', .outOfRangeAccess error)) : s' = s := by
  have hidle := not_busy_of_harness_next h
  cases op with
  | clearMemory => rw [harness_clearMemory hidle] at h; cases h
  | reset => rw [harness_reset hidle] at h; cases h
  | readByte addr => exact state_of_harness_read (.inl ⟨addr, .inl rfl⟩) h
  | readWord addr => exact state_of_harness_read (.inl ⟨addr, .inr rfl⟩) h
  | observe what => exact state_of_harness_observe h
  | writeByte addr v =>
    rw [harness_writeByte hidle] at h
    exact state_of_answerWrite_outOfRange (Host.Outcome.next.inj h)
  | writeWord v addr =>
    rw [harness_writeWord hidle] at h
    exact state_of_answerWrite_outOfRange (Host.Outcome.next.inj h)
  | execute cycleBudget =>
    rw [harness_execute hidle] at h
    obtain ⟨-, -, -, hanswer⟩ := execute_cases h
    cases hf : s'.fault <;> simp [callResult, hf] at hanswer

/-- Settles O46: such an operation leaves the state or sets its memory, and a failing access and a read set nothing. -/
theorem hostAccessesChangeOnlyMemory : Obligations.HostAccessesChangeOnlyMemory := by
  intro op s s' answer hreset hexecute h
  refine ⟨?frame, fun error hanswer => harness_outOfRange_keeps (hanswer ▸ h),
    fun hread => state_of_harness_read hread h⟩
  case frame =>
    obtain rfl | ⟨m, -, rfl⟩ | ⟨hop, -⟩ | ⟨cycleBudget, hop, -⟩ := harness_cases h
    · rfl
    · rfl
    · exact absurd hop hreset
    · exact absurd hop (hexecute cycleBudget)

/-! ## `Reset` and the time before it -/

theorem busy_of_spent {s : State} (h : s.cyc ≤ 0) : s.busy = false := by
  simp [State.busy, Int.not_lt.mpr h]

/-- Settles O2: where no call is under way the host's `Reset` does not look at the state (R231), and each of the three
conditions rules out a call. -/
theorem hostResetReinitializesFromAnyIdleState :
    Obligations.HostResetReinitializesFromAnyIdleState := by
  refine ⟨fun _ => harness_reset, fun s hidle => ?_⟩
  obtain hundef | hlatched | hspent := hidle
  · exact busy_of_undefined hundef
  · obtain ⟨record, hrecord⟩ := Option.isSome_iff_exists.mp hlatched
    exact busy_of_latched hrecord
  · exact busy_of_spent hspent

/-- Settles O49: a core never reset has no call under way, so memory is read, and `DEFINED` refuses the rest. -/
theorem registersAreRefusedBeforeReset : Obligations.RegistersAreRefusedBeforeReset := fun _ hdef =>
  have hidle := busy_of_undefined hdef
  ⟨harness_observe_undefined hdef, fun _ => harness_readByte_within hidle,
    fun _ => harness_readWord_within hidle⟩

end Sys2Proof.Machine
